-- ==== Sys2Proof/Word.lean ====
section
/-! DEFINITION. The word types of the machine (spec/00_scope.md R6, R7; every quantity is unsigned, R8). -/

namespace Sys2Proof

/-- One byte of the instruction stream (20_memory.md R20). -/
abbrev Byte := BitVec 8

/-- One register or data-memory word: `XLEN` = `MEMW` = 32 bits (00_scope.md R6, R7; log 4). -/
abbrev Word := BitVec 32

/-- One instruction word: `ILEN` = 40 bits (30_encoding.md R40). -/
abbrev InstrWord := BitVec 40

/-- Field A, the opcode code: 6 bits (30_encoding.md R41). -/
abbrev OpcodeCode := BitVec 6

/-- A register index: 7 bits, so 0 to 127, every value legal (30_encoding.md R42). -/
abbrev RegIndex := BitVec 7

/-- The immediate of `load_const`: 25 bits (30_encoding.md R43). -/
abbrev Imm := BitVec 25

/-- The data address of `write_mem` and `not`: 13 bits, so 0 to 8191, every value legal (20_memory.md R29). -/
abbrev DataAddr := BitVec 13

end Sys2Proof
end

