-- ==== Sys2Proof/Machine/Alu.lean ====
section
/-! DEFINITION. The one arithmetic or logic operation of the machine (spec/44_not.md R90). There is no Flags.lean:
the machine has no flag (spec/10_state.md section 4). -/

namespace Sys2Proof.Machine

/-- `(~v) & 0xFFFFFFFF`, the mask kept as the spec writes it (44_not.md R89, R90; 90_conflicts.md C6). -/
def complement32 (v : Word) : Word := ~~~v &&& 0xFFFFFFFF#32

end Sys2Proof.Machine
end

