-- ==== Sys2Proof/Config.lean ====
section
/-! DEFINITION. The fixed parameters of the hardware (spec/00_scope.md R6). There is no opaque constant here: the
spec leaves no value undefined (spec/93_implementation_defined.md section 1), so the model has no free value. -/

namespace Sys2Proof.Config

/-- `IBYTES`: bytes per instruction in the stream (00_scope.md R6, 30_encoding.md R40). -/
abbrev instrBytes : Nat := 5

/-- `NREGS`: number of general registers (00_scope.md R6, 10_state.md R10). -/
abbrev numRegs : Nat := 128

/-- `MEMWORDS`: number of data-memory words (00_scope.md R6, 10_state.md R12). -/
abbrev memWords : Nat := 8192

/-- `REG_MAX`: the largest register index (00_scope.md R6). -/
abbrev regMax : Nat := 127

/-- `IMM_MAX`: the largest `load_const` value, 2^25 - 1 (00_scope.md R6). -/
abbrev immMax : Nat := 33554431

/-- `ADDR_MAX`: the largest data address, 2^13 - 1 (00_scope.md R6). -/
abbrev addrMax : Nat := 8191

end Sys2Proof.Config
end

