-- ==== Sys2Proof/Syntax.lean ====
section
/-! DEFINITION. The instructions, the instruction record and the symbolic command of spec/30_encoding.md, and the
answers the Encoder and the Decoder can give. -/

namespace Sys2Proof

/-- The four opcode names (00_scope.md R1; "a closed tagged-variant/enum over the four opcodes", 40 R75). -/
inductive Opcode where
  | loadConst
  | readMem
  | writeMem
  | not
deriving DecidableEq, Repr

/-- One decoded instruction, one constructor per row of spec/opcode_table.json. The operands have exactly the
widths of the fields B and C (30_encoding.md R42, R43), in that order. -/
inductive Instr where
  /-- `load_const B, C` (41_load_const.md R85). -/
  | loadConst (destReg : RegIndex) (value : Imm)
  /-- `read_mem B, C` (42_read_mem.md R86). -/
  | readMem (srcReg : RegIndex) (destReg : RegIndex)
  /-- `write_mem B, C` (43_write_mem.md R88). -/
  | writeMem (srcReg : RegIndex) (destAddr : DataAddr)
  /-- `not B, C` (44_not.md R89). -/
  | not (srcReg : RegIndex) (destAddr : DataAddr)
deriving DecidableEq, Repr

/-- One entry of the ISA Table: name, code, width of field C (10_state.md R18, 30_encoding.md R45). -/
structure IsaRow where
  opcode : Opcode
  name   : String
  code   : OpcodeCode
  cWidth : Nat
deriving DecidableEq, Repr

/-- The instruction record `{opcode, A, B, C}` (30_encoding.md R47). The fields are plain numbers: `Pack` is
defined outside the bounds too (R49), and `Record.wellFormed` is the check. -/
structure Record where
  opcode : Opcode
  a : Nat
  b : Nat
  c : Nat
deriving DecidableEq, Repr

/-- The four operand names of a symbolic command (30_encoding.md R50). -/
inductive OperandName where
  | destReg
  | srcReg
  | value
  | destAddr
deriving DecidableEq, Repr

/-- A symbolic command at the Encoder's boundary: a name, or none, and for each operand name an integer or
"absent" (30_encoding.md R50; 92_eei_decisions.md D12, log 13). -/
structure Command where
  opcode   : Option String := none
  destReg  : Option Int := none
  srcReg   : Option Int := none
  value    : Option Int := none
  destAddr : Option Int := none
deriving DecidableEq, Repr

/-- The Encoder's errors (30_encoding.md R51 to R53, 60_exceptions.md R100). -/
inductive ValidationError where
  /-- The command names no known opcode; the name is `none` where the command has none (R51). -/
  | unknownOpcode (name : Option String)
  /-- A required operand is absent; carries the required set, B's operand first (R52). -/
  | missingField (opcode : Opcode) (required : List OperandName)
  /-- An operand is outside its inclusive bounds (R53). -/
  | outOfRange (operand : OperandName) (value low high : Int)
deriving DecidableEq, Repr

/-- The Decoder's two failure modes (30_encoding.md R57). -/
inductive DecodeError where
  /-- The input is not exactly 5 bytes. -/
  | structural
  /-- Field A is not in the ISA Table; carries A. -/
  | unknownOpcode (code : OpcodeCode)
deriving DecidableEq, Repr

end Sys2Proof
end

