-- ==== Sys2Proof/Machine/Isa.lean ====
section
/-! DEFINITION. The ISA Table (spec/10_state.md R18, spec/30_encoding.md R45): the one constant the Encoder and the
Decoder both consult, and which operand of an instruction fills which field (R50). -/

namespace Sys2Proof

/-- The row of an opcode name (30_encoding.md R45). -/
def Opcode.row : Opcode → IsaRow
  | .loadConst => { opcode := .loadConst, name := "load_const", code := 56, cWidth := 25 }
  | .readMem   => { opcode := .readMem,   name := "read_mem",   code := 62, cWidth := 7 }
  | .writeMem  => { opcode := .writeMem,  name := "write_mem",  code := 54, cWidth := 13 }
  | .not       => { opcode := .not,       name := "not",        code := 59, cWidth := 13 }

/-- The ISA Table: exactly four entries (30_encoding.md R45). -/
def isaTable : List IsaRow :=
  [Opcode.row .loadConst, Opcode.row .readMem, Opcode.row .writeMem, Opcode.row .not]

/-- Lookup name → code. -/
def Opcode.code (op : Opcode) : OpcodeCode := op.row.code

/-- Lookup name → C width (30_encoding.md R43). -/
def Opcode.cWidth (op : Opcode) : Nat := op.row.cWidth

/-- Lookup code → name, `none` for the 60 codes that are not in the table (30_encoding.md R61). -/
def Opcode.ofCode (a : OpcodeCode) : Option Opcode :=
  (isaTable.find? (fun r => r.code == a)).map IsaRow.opcode

/-- Lookup of a symbolic name, compared exactly (30_encoding.md R51; 92_eei_decisions.md D12). -/
def Opcode.ofName (name : String) : Option Opcode :=
  (isaTable.find? (fun r => r.name == name)).map IsaRow.opcode

/-- The operand that fills field B and the one that fills field C (30_encoding.md R50). -/
def Opcode.operands : Opcode → OperandName × OperandName
  | .loadConst => (.destReg, .value)
  | .readMem   => (.srcReg, .destReg)
  | .writeMem  => (.srcReg, .destAddr)
  | .not       => (.srcReg, .destAddr)

/-- The opcode name of an instruction. -/
def Instr.opcode : Instr → Opcode
  | .loadConst _ _ => .loadConst
  | .readMem _ _   => .readMem
  | .writeMem _ _  => .writeMem
  | .not _ _       => .not

/-- The number in field B (30_encoding.md R42, R63). -/
def Instr.fieldB : Instr → Nat
  | .loadConst b _ => b.toNat
  | .readMem b _   => b.toNat
  | .writeMem b _  => b.toNat
  | .not b _       => b.toNat

/-- The number in field C (30_encoding.md R43, R63). -/
def Instr.fieldC : Instr → Nat
  | .loadConst _ c => c.toNat
  | .readMem _ c   => c.toNat
  | .writeMem _ c  => c.toNat
  | .not _ c       => c.toNat

/-- The instruction record of an instruction (30_encoding.md R47). -/
def Instr.toRecord (i : Instr) : Record :=
  { opcode := i.opcode, a := i.opcode.code.toNat, b := i.fieldB, c := i.fieldC }

/-- The instruction a record stands for: the operands at the widths of their fields (40 R75: the execute phase
uses only `opcode`, `B` and `C`). -/
def Record.toInstr (r : Record) : Instr :=
  match r.opcode with
  | .loadConst => .loadConst (BitVec.ofNat 7 r.b) (BitVec.ofNat 25 r.c)
  | .readMem   => .readMem (BitVec.ofNat 7 r.b) (BitVec.ofNat 7 r.c)
  | .writeMem  => .writeMem (BitVec.ofNat 7 r.b) (BitVec.ofNat 13 r.c)
  | .not       => .not (BitVec.ofNat 7 r.b) (BitVec.ofNat 13 r.c)

end Sys2Proof
end

