-- ==== Sys2Proof/WellFormed.lean ====
section
/-! DEFINITION. When an instruction record is well-formed (spec/30_encoding.md R47). The operands of `Instr` have
the exact widths of their fields, so an instruction's own record always is. -/

namespace Sys2Proof

/-- Check 1 of R47: `A` is the code of `opcode`. -/
def Record.codeOk (r : Record) : Bool := r.a == r.opcode.code.toNat

/-- Check 2 of R47: `0 ≤ B ≤ 127`. -/
def Record.bOk (r : Record) : Bool := decide (r.b ≤ Config.regMax)

/-- Check 3 of R47: `0 ≤ C < 2^CW(opcode)`. -/
def Record.cOk (r : Record) : Bool := decide (r.c < 2 ^ r.opcode.cWidth)

/-- A record is well-formed when the three checks of R47 hold (that `opcode` is one of the four names is its type). -/
def Record.wellFormed (r : Record) : Bool := r.codeOk && r.bOk && r.cOk

/-- An instruction is well-formed when its record is. -/
def Instr.wellFormed (i : Instr) : Bool := i.toRecord.wellFormed

end Sys2Proof
end

