-- ==== Sys2Proof/Decode.lean ====
section
/-! DEFINITION. The Decoder and the packing of records (spec/30_encoding.md R48, R49, R56, R57): bytes to words,
words to records and back. The symbolic Encoder that calls `pack` is Sys2Proof/Machine/Encoder.lean. -/

namespace Sys2Proof

/-- `w[lo+len-1 : lo]` as an unsigned number (00_scope.md R9). -/
def fieldNat (w : InstrWord) (lo len : Nat) : Nat := (w.toNat >>> lo) % 2 ^ len

/-- `le40(b0, …, b4) = b0 + 2^8*b1 + 2^16*b2 + 2^24*b3 + 2^32*b4` (30_encoding.md R48). -/
def le40 (b0 b1 b2 b3 b4 : Byte) : InstrWord :=
  BitVec.ofNat 40
    (b0.toNat + 2 ^ 8 * b1.toNat + 2 ^ 16 * b2.toNat + 2 ^ 24 * b3.toNat + 2 ^ 32 * b4.toNat)

/-- Byte `k` of a word: bits `8k+7 : 8k` (30_encoding.md R48). -/
def byteOf (w : InstrWord) (k : Nat) : Byte := BitVec.ofNat 8 (fieldNat w (8 * k) 8)

/-- `bytes40(w)`, byte 0 first (30_encoding.md R48, 20_memory.md R24). -/
def bytes40 (w : InstrWord) : List Byte :=
  [byteOf w 0, byteOf w 1, byteOf w 2, byteOf w 3, byteOf w 4]

/-- The Decoder on a word (30_encoding.md R56): A first, then B, then C at the width the opcode gives it. Bits
above the C field are not looked at (R58; 92_eei_decisions.md D7, log 8). -/
def decodeWord (w : InstrWord) : Except DecodeError Record :=
  let a : OpcodeCode := BitVec.ofNat 6 (fieldNat w 0 6)
  match Opcode.ofCode a with
  | none    => .error (.unknownOpcode a)
  | some op => .ok { opcode := op, a := a.toNat, b := fieldNat w 6 7, c := fieldNat w 13 op.cWidth }

/-- `Decode(bs)`, total on any byte sequence (30_encoding.md R56, R57; 92_eei_decisions.md D19). -/
def decode (bs : List Byte) : Except DecodeError Record :=
  match bs with
  | [b0, b1, b2, b3, b4] => decodeWord (le40 b0 b1 b2 b3 b4)
  | _ => .error .structural

/-- The instruction the Decoder reads from a byte sequence. -/
def decodeInstr (bs : List Byte) : Except DecodeError Instr :=
  match decode bs with
  | .ok r    => .ok r.toInstr
  | .error e => .error e

/-- `Pack(record)`: A at bit 0, B masked to 7 bits at bit 6, C masked to the opcode's width at bit 13
(30_encoding.md R49). -/
def pack (r : Record) : InstrWord :=
  BitVec.ofNat 40
    (r.opcode.code.toNat + 2 ^ 6 * (r.b % 2 ^ 7) + 2 ^ 13 * (r.c % 2 ^ r.opcode.cWidth))

/-- The five bytes of an instruction: `bytes40(Pack(record))` (30_encoding.md R54). -/
def encode (i : Instr) : List Byte := bytes40 (pack i.toRecord)

/-- A word the Encoder can produce: known A and every bit above the C field zero (30_encoding.md R44). -/
def canonical (w : InstrWord) : Bool :=
  match Opcode.ofCode (BitVec.ofNat 6 (fieldNat w 0 6)) with
  | none    => false
  | some op => w.toNat >>> (13 + op.cWidth) == 0

/-- The word of an opcode-table row as the table numbers its bits: bit 0 is the least significant bit of the
first byte, `nbits` bits are given and every other bit is 0. -/
def tableWord (nbits w : Nat) : InstrWord := BitVec.ofNat 40 (w % 2 ^ nbits)

/-- What the Decoder reads from the bytes of that word. -/
def decodeTableWord (nbits w : Nat) : Option Instr :=
  match decodeInstr (bytes40 (tableWord nbits w)) with
  | .ok i    => some i
  | .error _ => none

end Sys2Proof
end

