-- ==== Sys2Proof/Machine/State.lean ====
section
/-! DEFINITION. The whole state of the Executor as plain data (spec/10_state.md R10 to R16), the state at reset
(spec/70_reset_and_hazards.md R120), and the reasons a step can stop. -/

namespace Sys2Proof.Machine

/-- The Executor's run state (10_state.md R14). -/
inductive Status where
  | running
  | halted
deriving DecidableEq, Repr

/-- Which transition halted the run (10_state.md R15; 92_eei_decisions.md D8, D9, log 9). -/
inductive HaltCause where
  | none
  | endOfStream
  | structural
  | unknownOpcode
deriving DecidableEq, Repr

/-- One error report (10_state.md R16; the data carried are 92_eei_decisions.md D8, log 9). -/
inductive Report where
  /-- `BoundsError(pc, address)`: the `read_mem` at `pc` met the out-of-range `address` (60_exceptions.md R103). -/
  | boundsError (pc : Nat) (address : Word)
  /-- `StructuralError(pc, available)`: 1 to 4 bytes were left at `pc` (60_exceptions.md R101). -/
  | structuralError (pc available : Nat)
  /-- `UnknownOpcodeError(pc, A)` (60_exceptions.md R102). -/
  | unknownOpcodeError (pc : Nat) (code : OpcodeCode)
deriving DecidableEq, Repr

/-- The two errors that halt the run (60_exceptions.md R107), with the data their report carries beside the pc. -/
inductive FatalError where
  | structural (available : Nat)
  | unknownOpcode (code : OpcodeCode)
deriving DecidableEq, Repr

/-- One listed word of data memory: its word address and its value (10_state.md R12: the unit of addressing is
the 32-bit word; log 2). -/
abbrev MemCell := Nat × Word

/-- Data memory as the list of its words that are not 0, addresses strictly rising (log 2). -/
abbrev Memory := List MemCell

/-- The whole state (10_state.md R19: there is no hidden state), and the instruction stream of the run. -/
structure State where
  /-- `x[0..127]` (10_state.md R10). -/
  regs : Vector Word 128
  /-- `mem[0..8191]` (10_state.md R12). -/
  mem : Memory
  /-- The program counter, a byte offset into the stream (10_state.md R13). -/
  pc : Nat
  /-- Run state (10_state.md R14). -/
  status : Status
  /-- Why the run halted (10_state.md R15). -/
  haltCause : HaltCause
  /-- The report log, oldest first (10_state.md R16). -/
  reports : List Report
  /-- `istream`, the bytes the host supplied before the run (10_state.md R17). DESIGN CHOICE (log 1): the spec
  makes it a parameter of the step; the step of `Host.Core` has none, so the state carries it unchanged. -/
  stream : List Byte
deriving DecidableEq, Repr

/-- Why no step was made. -/
inductive Fault where
  /-- Raised by `step` alone, on a state whose `status` is `halted`: the Executor has no step there
  (40_fetch_decode_execute.md R70, R77; 92_eei_decisions.md D17, log 3). Safe: the model stops where the machine
  has stopped. -/
  | halted
deriving DecidableEq, Repr

/-- Why an instruction has no meaning. -/
inductive Refusal where
  /-- Raised by an arm of `exec` whose instruction has no meaning yet; no arm does. Safe: the model says nothing of
  the instruction. -/
  | notModelled (mnemonic : String)
deriving DecidableEq, Repr

/-- The reset state (70_reset_and_hazards.md R120). The stream is empty: the host supplies it (log 1). -/
def State.reset : State :=
  { regs := Vector.replicate 128 0
    mem := []
    pc := 0
    status := .running
    haltCause := .none
    reports := []
    stream := [] }

end Sys2Proof.Machine
end

