-- ==== Sys2Proof/Machine/Ops.lean ====
section
/-! DEFINITION. The named operations over registers, data memory, the report log, the run state and the
instruction stream that every meaning and the step are written in (spec/00_scope.md R9). -/

namespace Sys2Proof.Machine

/-! ### Registers -/

/-- `x[i]` (10_state.md R10). -/
def State.readReg (s : State) (i : RegIndex) : Word := s.regs[i.toNat]'i.isLt

/-- `x[i] <- v`; no register is hard-wired (10_state.md R10). -/
def State.writeReg (s : State) (i : RegIndex) (v : Word) : State :=
  { s with regs := s.regs.set i.toNat v i.isLt }

/-! ### Data memory -/

/-- What an unlisted word reads as: the reset content (10_state.md R12). -/
def Memory.unlisted : Word := 0

/-- The word at an address. -/
def Memory.lookup : Memory → Nat → Word
  | [], _ => Memory.unlisted
  | (b, w) :: rest, a => if a = b then w else Memory.lookup rest a

/-- The memory without the word at an address: it reads as unlisted there. -/
def Memory.erase (m : Memory) (a : Nat) : Memory := m.filter (fun c => c.1 != a)

/-- List one word before the first higher address. -/
def Memory.insert : Memory → Nat → Word → Memory
  | [], a, v => [(a, v)]
  | (b, w) :: rest, a, v => if a < b then (a, v) :: (b, w) :: rest else (b, w) :: Memory.insert rest a v

/-- Replace the word at an address. The canonical form is kept: a word equal to what an unlisted address reads as
is not listed. -/
def Memory.update (m : Memory) (a : Nat) (v : Word) : Memory :=
  if v = Memory.unlisted then m.erase a else (m.erase a).insert a v

/-- The canonical form from address `lo` on: addresses strictly rising, inside the address space (20_memory.md
R27), no entry equal to what an unlisted address reads as. -/
def Memory.wfFrom : Nat → Memory → Bool
  | _, [] => true
  | lo, (a, v) :: rest =>
    decide (lo ≤ a) && decide (a < Config.memWords) && decide (v ≠ Memory.unlisted) && Memory.wfFrom (a + 1) rest

/-- The canonical form of data memory (log 2). -/
def Memory.wf (m : Memory) : Bool := Memory.wfFrom 0 m

/-- `MemRead(addr, 1)`, defined for `0 ≤ addr ≤ 8191` and for no other address (20_memory.md R21). -/
def State.memRead (s : State) (a : Nat) : Option Word :=
  if a ≤ Config.addrMax then some (Memory.lookup s.mem a) else none

/-- `MemWrite(addr, 1, v)`: the whole word is replaced. The address is field C, 13 bits, so it is always in range
(20_memory.md R22, R29). -/
def State.memWrite (s : State) (a : DataAddr) (v : Word) : State :=
  { s with mem := Memory.update s.mem a.toNat v }

/-! ### Reports and halting -/

/-- `report <Kind>(info)`: append to the report log; it does not stop the run (00_scope.md R9, 10_state.md R16). -/
def State.report (s : State) (r : Report) : State := { s with reports := s.reports ++ [r] }

/-- `status <- halted; halt_cause <- cause` (10_state.md R14, R15). -/
def State.halt (s : State) (cause : HaltCause) : State := { s with status := .halted, haltCause := cause }

/-- The record a fatal error at `pc` is reported as (10_state.md R16). -/
def FatalError.toReport (e : FatalError) (pc : Nat) : Report :=
  match e with
  | .structural available => .structuralError pc available
  | .unknownOpcode code   => .unknownOpcodeError pc code

/-- The halt cause of a fatal error (10_state.md R15). -/
def FatalError.cause : FatalError → HaltCause
  | .structural _    => .structural
  | .unknownOpcode _ => .unknownOpcode

/-- `raise E(info)`, the one way a fatal error is taken: the report is appended, the run halts with the error's
cause, and nothing else changes, the pc included (60_exceptions.md R107; 92_eei_decisions.md D6, log 7). There is no
handler, no saved register, and no return (R107, R108). -/
def State.raise (s : State) (e : FatalError) : State := (s.report (e.toReport s.pc)).halt e.cause

/-- The reset that begins a run on the stream the host supplies, and the only way out of `halted`
(70_reset_and_hazards.md R120, R121, R122; log 1). -/
def State.load (stream : List Byte) : State := { State.reset with stream := stream }

/-! ### Fetch and the end of a step -/

/-- Why a step ends without executing an instruction, or the instruction it executes (40 R71, lines 1 to 4). -/
inductive NextAction where
  | endOfStream
  | fatal (e : FatalError)
  | execute (i : Instr)
deriving DecidableEq, Repr

/-- `IFetch(pc)`: the five bytes at `pc`, fewer where fewer are left (20_memory.md R23). -/
def State.fetchBytes (s : State) : List Byte := (s.stream.drop s.pc).take Config.instrBytes

/-- Lines 1 to 3 of the step, in their order: end of stream, partial instruction, decode (40 R71, R72, R73, R74;
60_exceptions.md R106; 92_eei_decisions.md D4, D5, logs 5 and 6). The Decoder's StructuralError cannot answer here,
the test before it has excluded it (R74); it would be the same error. -/
def State.nextAction (s : State) : NextAction :=
  if s.stream.length ≤ s.pc then .endOfStream
  else if s.stream.length - s.pc < Config.instrBytes then .fatal (.structural (s.stream.length - s.pc))
  else
    match decodeInstr s.fetchBytes with
    | .ok i                     => .execute i
    | .error (.unknownOpcode a) => .fatal (.unknownOpcode a)
    | .error .structural        => .fatal (.structural (s.stream.length - s.pc))

/-- Lines 5 and 6 of the step: advance the pc by 5, then halt if the stream ends there (40 R71, R72, R76). -/
def State.advance (s : State) : State :=
  let t := { s with pc := s.pc + Config.instrBytes }
  if t.stream.length ≤ t.pc then t.halt .endOfStream else t

/-- What a step answers once the execute phase has: lines 5 and 6 on its next state (40 R71). -/
def completeStep (o : Host.Outcome State Fault Refusal) : Host.Outcome State Fault Refusal :=
  match o with
  | .next t    => .next t.advance
  | .fault f   => .fault f
  | .refused r => .refused r

/-- The state with the five bytes of `w` at the pc and the Executor running, everything else as it was (bytes of
the stream below the pc that do not exist are 0). -/
def State.placeWord (s : State) (w : InstrWord) : State :=
  { s with
    stream := s.stream.take s.pc ++ List.replicate (s.pc - s.stream.length) 0 ++ bytes40 w
      ++ s.stream.drop (s.pc + Config.instrBytes)
    status := .running
    haltCause := .none }

end Sys2Proof.Machine
end

