-- ==== Sys2Proof/Machine/Operands.lean ====
section
/-! DEFINITION. The operand forms of the four instructions (spec/30_encoding.md R63; the addressing modes of
spec/42_read_mem.md R86, spec/43_write_mem.md R88, spec/44_not.md R89). -/

namespace Sys2Proof.Machine

/-- The immediate of `load_const`, zero-extended to 32 bits (30_encoding.md R63, 41_load_const.md R85). -/
def immValue (c : Imm) : Word := c.setWidth 32

/-- Register direct: the operand is the whole register (43_write_mem.md R88, 44_not.md R89). -/
def State.regOperand (s : State) (b : RegIndex) : Word := s.readReg b

/-- Register indirect: the effective address of `read_mem` is the whole 32-bit value of `x[B]`, a word address with
no offset, no scaling and no truncation (42_read_mem.md R86). -/
def State.indirectAddress (s : State) (b : RegIndex) : Nat := (s.readReg b).toNat

/-- Absolute: the effective address of `write_mem` and `not` is field C itself; no register takes part
(43_write_mem.md R88, 44_not.md R89). -/
def absoluteAddress (c : DataAddr) : DataAddr := c

end Sys2Proof.Machine
end

