-- ==== Sys2Proof/Machine/MemoryWrites.lean ====
section
/-! DEFINITION. The instructions whose destination is a data-memory word: `write_mem` (spec/43_write_mem.md) and
`not` (spec/44_not.md). A meaning is the execute phase, line 4 of 40 R71. Neither has a bounds test
(spec/20_memory.md R29, spec/90_conflicts.md C1). -/

namespace Sys2Proof.Machine

/-- `write_mem B, C`: `mem[C] <- x[B]` (43_write_mem.md R88). -/
def execWriteMem (srcReg : RegIndex) (destAddr : DataAddr) (s : State) : Host.Outcome State Fault Refusal :=
  .next (s.memWrite (absoluteAddress destAddr) (s.regOperand srcReg))

/-- `not B, C`: `mem[C] <- (~x[B]) & 0xFFFFFFFF`; no register is written (44_not.md R89). -/
def execNot (srcReg : RegIndex) (destAddr : DataAddr) (s : State) : Host.Outcome State Fault Refusal :=
  .next (s.memWrite (absoluteAddress destAddr) (complement32 (s.regOperand srcReg)))

end Sys2Proof.Machine
end

