-- ==== Sys2Proof/Machine/RegisterWrites.lean ====
section
/-! DEFINITION. The instructions whose destination is a register: `load_const` (spec/41_load_const.md) and
`read_mem` (spec/42_read_mem.md). A meaning is the execute phase, line 4 of 40 R71; the pc's advance and the test
for the end of the stream (lines 5 and 6) are the step's. -/

namespace Sys2Proof.Machine

/-- `load_const B, C`: `x[B] <- zext_32(C)`; it cannot fail (41_load_const.md R85). -/
def execLoadConst (destReg : RegIndex) (value : Imm) (s : State) : Host.Outcome State Fault Refusal :=
  .next (s.writeReg destReg (immValue value))

/-- `read_mem B, C`: the address is read before the destination is written (70 R125); an address above 8191 is
reported and the read skipped, the destination keeping its value, and the run goes on (42_read_mem.md R86, R87;
92_eei_decisions.md D10, log 10). -/
def execReadMem (srcReg destReg : RegIndex) (s : State) : Host.Outcome State Fault Refusal :=
  match s.memRead (s.indirectAddress srcReg) with
  | some v => .next (s.writeReg destReg v)
  | none   => .next (s.report (.boundsError s.pc (s.readReg srcReg)))

end Sys2Proof.Machine
end

