-- ==== Sys2Proof/Machine/Dispatch.lean ====
section
/-! DEFINITION. The execute phase: one arm per opcode, exhaustive (spec/40_fetch_decode_execute.md R75). -/

namespace Sys2Proof.Machine

def exec (i : Instr) (s : State) : Host.Outcome State Fault Refusal :=
  match i with
  | .loadConst destReg value => Sys2Proof.Machine.execLoadConst destReg value s
  | .readMem srcReg destReg => Sys2Proof.Machine.execReadMem srcReg destReg s
  | .writeMem srcReg destAddr => Sys2Proof.Machine.execWriteMem srcReg destAddr s
  | .not srcReg destAddr => Sys2Proof.Machine.execNot srcReg destAddr s

end Sys2Proof.Machine
end

