-- ==== Sys2Proof/Machine/Step.lean ====
section
/-! DEFINITION. The Executor's step (spec/40_fetch_decode_execute.md R71), and the placing of one instruction where
it fetches. -/

namespace Sys2Proof.Machine

/-- One step (40 R71): a halted Executor has none (R70, R77); otherwise end of stream, a fatal error, or one
instruction executed and completed. -/
def step (s : State) : Host.Outcome State Fault Refusal :=
  match s.status with
  | .halted => .fault .halted
  | .running =>
    match s.nextAction with
    | .endOfStream => .next (s.halt .endOfStream)
    | .fatal e     => .next (s.raise e)
    | .execute i   => completeStep (exec i s)

/-- `s` with the table word `w` stored at the pc and the Executor running, so that the next step fetches and runs
exactly it (log 1). -/
def State.withFetchWord (s : State) (nbits w : Nat) : State := s.placeWord (tableWord nbits w)

end Sys2Proof.Machine
end

