-- ==== Sys2Proof/Machine/Encoder.lean ====
section
/-! DEFINITION. The Encoder: the validation of one symbolic command and of a sequence of them
(spec/30_encoding.md R50 to R55). Pure: no state is read or written (R54). -/

namespace Sys2Proof

/-- The value a command gives an operand name, `none` where it is absent (30_encoding.md R50). -/
def Command.operand (cmd : Command) : OperandName → Option Int
  | .destReg  => cmd.destReg
  | .srcReg   => cmd.srcReg
  | .value    => cmd.value
  | .destAddr => cmd.destAddr

/-- The highest legal value of an operand; the lowest is 0 (30_encoding.md R53). -/
def OperandName.high : OperandName → Nat
  | .destReg  => Config.regMax
  | .srcReg   => Config.regMax
  | .value    => Config.immMax
  | .destAddr => Config.addrMax

/-- Range check of one operand, inclusive at both ends (30_encoding.md R53). -/
def checkRange (operand : OperandName) (v : Int) : Except ValidationError Nat :=
  if 0 ≤ v ∧ v ≤ operand.high then .ok v.toNat else .error (.outOfRange operand v 0 operand.high)

/-- Check 1: the command names a known opcode (30_encoding.md R51). -/
def checkOpcode (name : Option String) : Except ValidationError Opcode :=
  match name with
  | none   => .error (.unknownOpcode none)
  | some n =>
    match Opcode.ofName n with
    | some op => .ok op
    | none    => .error (.unknownOpcode (some n))

/-- Check 2: both required operands are present, B's first; operands under other names are ignored
(30_encoding.md R52; 92_eei_decisions.md D13, log 13). -/
def checkPresence (op : Opcode) (cmd : Command) : Except ValidationError (Int × Int) :=
  match cmd.operand op.operands.1, cmd.operand op.operands.2 with
  | some b, some c => .ok (b, c)
  | _, _           => .error (.missingField op [op.operands.1, op.operands.2])

/-- Check 3: B's operand before C's (30_encoding.md R53; 92_eei_decisions.md D11, log 12). -/
def checkRanges (op : Opcode) (b c : Int) : Except ValidationError (Nat × Nat) :=
  match checkRange op.operands.1 b with
  | .error e => .error e
  | .ok bn   =>
    match checkRange op.operands.2 c with
    | .error e => .error e
    | .ok cn   => .ok (bn, cn)

/-- The instruction record a command becomes when the three checks, made in order, pass (30_encoding.md R54). -/
def validate (cmd : Command) : Except ValidationError Record :=
  match checkOpcode cmd.opcode with
  | .error e => .error e
  | .ok op   =>
    match checkPresence op cmd with
    | .error e     => .error e
    | .ok (bv, cv) =>
      match checkRanges op bv cv with
      | .error e   => .error e
      | .ok (b, c) => .ok { opcode := op, a := op.code.toNat, b := b, c := c }

/-- `Encode(command)` (30_encoding.md R54). -/
def encodeCommand (cmd : Command) : Except ValidationError (List Byte) :=
  match validate cmd with
  | .error e => .error e
  | .ok r    => .ok (bytes40 (pack r))

/-- `EncodeAll` from the command numbered `i` on. -/
def encodeFrom (i : Nat) (cmds : List Command) : Except (Nat × ValidationError) (List Byte) :=
  match cmds with
  | [] => .ok []
  | cmd :: rest =>
    match encodeCommand cmd with
    | .error e => .error (i, e)
    | .ok bs   =>
      match encodeFrom (i + 1) rest with
      | .error e  => .error e
      | .ok more  => .ok (bs ++ more)

/-- `EncodeAll(commands)`: all the bytes, or the zero-based index and the error of the first invalid command and no
bytes (30_encoding.md R55, 60_exceptions.md R100, R105). -/
def encodeAll (cmds : List Command) : Except (Nat × ValidationError) (List Byte) := encodeFrom 0 cmds

/-- The symbolic command of an instruction (30_encoding.md R50). -/
def Instr.toCommand : Instr → Command
  | .loadConst b c => { opcode := some "load_const", destReg := some b.toNat, value := some c.toNat }
  | .readMem b c   => { opcode := some "read_mem", srcReg := some b.toNat, destReg := some c.toNat }
  | .writeMem b c  => { opcode := some "write_mem", srcReg := some b.toNat, destAddr := some c.toNat }
  | .not b c       => { opcode := some "not", srcReg := some b.toNat, destAddr := some c.toNat }

end Sys2Proof
end

