-- ==== Sys2Proof/Machine/Exporter.lean ====
section
/-! DEFINITION. The Memory Exporter: the host's read port on data memory (spec/20_memory.md R33, R34). -/

namespace Sys2Proof.Machine

/-- One entry `{address, value, hex}`. `value` and `hex` denote the same number; the text of `hex` is the host
software's (20_memory.md R33; 91_not_in_source.md N9, log 14). -/
structure ExportEntry where
  address : Nat
  value   : Nat
  hex     : Nat
deriving DecidableEq, Repr

/-- The record `{start, end, entries}` (20_memory.md R33). -/
structure ExportRecord where
  first   : Nat
  last    : Nat
  entries : List ExportEntry
deriving DecidableEq, Repr

/-- The exporter's one error (20_memory.md R34; the name is 92_eei_decisions.md D9). -/
inductive ExportError where
  | range (first last : Int)
deriving DecidableEq, Repr

/-- The entry of one address. -/
def State.exportEntry (s : State) (a : Nat) : ExportEntry :=
  { address := a, value := (Memory.lookup s.mem a).toNat, hex := (Memory.lookup s.mem a).toNat }

/-- `Export(start, end)`: every word of the inclusive range in ascending order, or the range error and no entries;
the state is only read (20_memory.md R33, R34; 92_eei_decisions.md D18, log 14). -/
def State.exportRange (s : State) (first last : Int) : Except ExportError ExportRecord :=
  if 0 ≤ first ∧ first ≤ last ∧ last ≤ Config.addrMax then
    .ok { first := first.toNat
          last := last.toNat
          entries := (List.range' first.toNat (last.toNat + 1 - first.toNat)).map s.exportEntry }
  else .error (.range first last)

end Sys2Proof.Machine
end

