-- ==== Sys2Proof/Machine/Formats.lean ====
section
/-! DEFINITION. The three instruction formats as pictures of bits, bit 39 first (spec/30_encoding.md R46). The
Decoder and `pack` do not use them: the statements say with them that every field is read from its own bits. -/

namespace Sys2Proof

/-- F25: bits 39:38, C in 37:13, B in 12:6, A in 5:0. -/
def formatF25 (hi : BitVec 2) (c : BitVec 25) (b : BitVec 7) (a : BitVec 6) : InstrWord := hi ++ c ++ b ++ a

/-- F7: bits 39:20, C in 19:13, B in 12:6, A in 5:0. -/
def formatF7 (hi : BitVec 20) (c : BitVec 7) (b : BitVec 7) (a : BitVec 6) : InstrWord := hi ++ c ++ b ++ a

/-- F13: bits 39:26, C in 25:13, B in 12:6, A in 5:0. -/
def formatF13 (hi : BitVec 14) (c : BitVec 13) (b : BitVec 7) (a : BitVec 6) : InstrWord := hi ++ c ++ b ++ a

end Sys2Proof
end

