-- ==== Sys2Proof/Machine/Run.lean ====
section
/-! DEFINITION. A run: the step applied until the Executor halts (spec/40_fetch_decode_execute.md R78), and the
straight-line execution of a list of instructions, which is what the order of a stream means (R80). -/

namespace Sys2Proof.Machine

/-- At most `n` steps, none once the Executor has halted (40 R77, R78). -/
def runFor : Nat → State → Host.Outcome State Fault Refusal
  | 0, s => .next s
  | n + 1, s =>
    match s.status with
    | .halted  => .next s
    | .running =>
      match step s with
      | .next t    => runFor n t
      | .fault f   => .fault f
      | .refused r => .refused r

/-- `Run(istream)`, with the bound of 40 R78 on its number of steps. -/
def run (stream : List Byte) : Host.Outcome State Fault Refusal :=
  runFor (stream.length / Config.instrBytes + 1) (State.load stream)

/-- The execute phases of a list of instructions in order, the pc moved past each; no fetch, no halt. -/
def execAll : List Instr → State → Host.Outcome State Fault Refusal
  | [], s => .next s
  | i :: rest, s =>
    match exec i s with
    | .next t    => execAll rest { t with pc := t.pc + Config.instrBytes }
    | .fault f   => .fault f
    | .refused r => .refused r

end Sys2Proof.Machine
end

