-- ==== Sys2Proof/Safety.lean ====
section
/-! DEFINITION. What every state of a run satisfies, and what counts as a failed run, in the terms the statements
use (spec/10_state.md R11 to R16, spec/60_exceptions.md R109). -/

namespace Sys2Proof.Machine

/-- The pc a report carries (10_state.md R16). -/
def Report.pc : Report → Nat
  | .boundsError p _        => p
  | .structuralError p _    => p
  | .unknownOpcodeError p _ => p

/-- A fatal report (60_exceptions.md section 1). -/
def Report.isFatal : Report → Bool
  | .boundsError _ _        => false
  | .structuralError _ _    => true
  | .unknownOpcodeError _ _ => true

/-- A BoundsError of an instruction before offset `limit`: its offset a multiple of 5, its address outside data
memory (60_exceptions.md R103). -/
def Report.isPastBounds (limit : Nat) : Report → Bool
  | .boundsError p a => decide (p % 5 = 0) && decide (p < limit) && decide (Config.addrMax < a.toNat)
  | _ => false

/-- The last report of a run halted by an unknown opcode code: at the pc, with a code that is not in the ISA Table
(60_exceptions.md R102). -/
def Report.isUnknownAt (pc : Nat) : Report → Bool
  | .unknownOpcodeError p a => decide (p = pc) && (Opcode.ofCode a).isNone
  | _ => false

/-- The last report of a run halted by a partial fetch: at the pc, with the number of bytes left
(60_exceptions.md R101). -/
def Report.isPartialAt (pc len : Nat) : Report → Bool
  | .structuralError p n => decide (p = pc) && decide (n = len - pc)
  | _ => false

/-- The shape of the report log (10_state.md R16): any number of BoundsErrors of instructions already passed, then
a fatal report, of the halt cause's kind, exactly when a fatal error halted the run. -/
def State.reportsShape (s : State) : Bool :=
  match s.haltCause with
  | .none | .endOfStream => s.reports.all (Report.isPastBounds s.pc)
  | .structural =>
    s.reports.dropLast.all (Report.isPastBounds s.pc) && s.reports.getLast?.any (Report.isPartialAt s.pc s.stream.length)
  | .unknownOpcode =>
    s.reports.dropLast.all (Report.isPastBounds s.pc) && s.reports.getLast?.any (Report.isUnknownAt s.pc)

/-- Where the pc stands in the stream, by the halt cause (10_state.md R13, R15; 40 R71, R72, R73, R74). -/
def State.pcPlace (s : State) : Bool :=
  match s.haltCause with
  | .none          => decide (s.pc < s.stream.length) || (decide (s.pc = 0) && decide (s.stream.length = 0))
  | .endOfStream   => decide (s.stream.length ≤ s.pc)
  | .structural    => decide (s.pc < s.stream.length) && decide (s.stream.length < s.pc + 5)
  | .unknownOpcode => decide (s.pc + 5 ≤ s.stream.length)

/-- The invariant of every run (10_state.md R11 to R16). That registers and words are below 2^32 is their type. -/
structure State.Inv (s : State) : Prop where
  /-- Data memory is in its canonical form, inside the address space (20_memory.md R27; log 2). -/
  mem_wf : Memory.wf s.mem = true
  /-- `pc mod 5 = 0` (10_state.md R13). -/
  pc_aligned : s.pc % 5 = 0
  /-- `pc ≤ L + 4` (10_state.md R13). -/
  pc_le : s.pc ≤ s.stream.length + 4
  /-- `halt_cause` is `none` exactly while `status = running` (10_state.md R15). -/
  cause_iff : s.haltCause = .none ↔ s.status = .running
  /-- The pc's place (10_state.md R13). -/
  pc_place : s.pcPlace = true
  /-- The report log's shape (10_state.md R16). -/
  reports_shape : s.reportsShape = true
  /-- The reports stand in the order of their instructions, at most one for each (10_state.md R16, 40 R80). -/
  reports_rising : (s.reports.map Report.pc).Pairwise (· < ·)

/-- A run is a "validation/decoding failure" when a fatal error halted it (60_exceptions.md R109). -/
def State.failed (s : State) : Bool :=
  match s.haltCause with
  | .structural | .unknownOpcode => true
  | .none | .endOfStream         => false

/-- The instruction's destination is the data-memory word at this address (10_state.md R12). -/
def writesMem (a : Nat) : Instr → Bool
  | .writeMem _ c  => decide (c.toNat = a)
  | .not _ c       => decide (c.toNat = a)
  | .loadConst _ _ => false
  | .readMem _ _   => false

/-- The instruction's destination is this register (10_state.md R10). -/
def writesReg (r : RegIndex) : Instr → Bool
  | .loadConst b _ => decide (b = r)
  | .readMem _ c   => decide (c = r)
  | .writeMem _ _  => false
  | .not _ _       => false

/-- The states a run on `stream` goes through (70_reset_and_hazards.md R120, 40 R78). -/
inductive Reachable (stream : List Byte) : State → Prop where
  | load : Reachable stream (State.load stream)
  | step {s t : State} : Reachable stream s → Machine.step s = .next t → Reachable stream t

end Sys2Proof.Machine
end

