-- ==== Sys2Proof/Certificates/Slice0/Obligations.lean ====
section
/-! DEFINITION. The statements for the provers. A docstring names the rules of spec/ a statement rests on, and the
sentence of the spec or the log entry where it rests on a decision that the spec marks as its own. -/

open Sys2Proof Sys2Proof.Machine

/-! ### Reset and the invariant -/

/-- 70 R120: what a run begins in, with whatever stream the host supplied, and with none. -/
def Obligations.ResetStateHoldsTheSpecValues : Prop :=
  ∀ s : State, (s = State.reset ∨ ∃ stream : List Byte, s = State.load stream) →
    (∀ r : RegIndex, s.readReg r = 0) ∧
    (∀ a : Nat, a ≤ 8191 → s.memRead a = some 0) ∧
    s.pc = 0 ∧ s.status = .running ∧ s.haltCause = .none ∧ s.reports = []

/-- The invariant (Safety.lean) holds at reset, with any stream loaded (log 1 for the stream). -/
def Obligations.ResetMeetsTheInvariant : Prop :=
  ∀ stream : List Byte, (State.load stream).Inv

/-- Every step from every state that meets the invariant gives a state that meets it: canonical memory, aligned pc
in its place, halt cause exactly when halted, report log of the spec's shape in program order (10 R12 to R16).
It rests on 92 D4, D5, D6, D8 (logs 5, 6, 7, 9). -/
def Obligations.StepKeepsTheInvariant : Prop :=
  ∀ s t : State, s.Inv → step s = .next t → t.Inv

/-- Hence it holds in every state of every run, and the stream is the one the host supplied (20 R32).
It rests on what the invariant's step does: 92 D4, D5, D6, D8 (logs 5, 6, 7, 9). -/
def Obligations.EveryReachableStateMeetsTheInvariant : Prop :=
  ∀ (stream : List Byte) (s : State), Reachable stream s → s.Inv ∧ s.stream = stream

/-- Two canonical memories that read alike are the same data (the model's own form, log 2). -/
def Obligations.CanonicalMemoriesThatReadAlikeAreEqual : Prop :=
  ∀ m n : Memory, Memory.wf m = true → Memory.wf n = true →
    (∀ a : Nat, a ≤ 8191 → Memory.lookup m a = Memory.lookup n a) → m = n

/-! ### Encoding -/

/-- 30 section 2 (R45): the four entries and the three lookups of the ISA Table. That the lookup of a name compares
it exactly, for every string, is 92 D12 (log 13). -/
def Obligations.IsaTableHasExactlyTheFourEntries : Prop :=
  isaTable.map (fun r => (r.opcode, r.name, r.code.toNat, r.cWidth)) =
    [(.loadConst, "load_const", 56, 25), (.readMem, "read_mem", 62, 7),
     (.writeMem, "write_mem", 54, 13), (.not, "not", 59, 13)] ∧
  (∀ op : Opcode, op.row ∈ isaTable ∧ op.row.opcode = op) ∧
  (∀ (a : OpcodeCode) (op : Opcode), Opcode.ofCode a = some op ↔ op.code = a) ∧
  (∀ (n : String) (op : Opcode), Opcode.ofName n = some op ↔ op.row.name = n)

/-- 95 V1 to V4 and Q14, Q16: words written out from the spec decode to their instructions (a sanity statement; the
last two have bits above the C field set, 92 D7, log 8). -/
def Obligations.SpecVectorsDecode : Prop :=
  decodeInstr [0xF8, 0x6B, 0x36, 0x00, 0x00] = .ok (.loadConst 47 435) ∧
  decodeInstr [0xFE, 0xBB, 0x0E, 0x00, 0x00] = .ok (.readMem 111 117) ∧
  decodeInstr [0x76, 0x4B, 0x25, 0x00, 0x00] = .ok (.writeMem 45 298) ∧
  decodeInstr [0xFB, 0xA1, 0x6F, 0x00, 0x00] = .ok (.not 7 893) ∧
  decodeInstr [0xFE, 0xBB, 0x1E, 0x00, 0x00] = .ok (.readMem 111 117) ∧
  decodeInstr [0x76, 0x4B, 0x25, 0x04, 0x00] = .ok (.writeMem 45 298)

/-- 30 R48: `bytes40` and `le40` are what the rule says and inverse to each other. -/
def Obligations.WordsAndFiveBytesAreInverse : Prop :=
  (∀ w : InstrWord, bytes40 w =
    [w.extractLsb' 0 8, w.extractLsb' 8 8, w.extractLsb' 16 8, w.extractLsb' 24 8, w.extractLsb' 32 8]) ∧
  (∀ b0 b1 b2 b3 b4 : Byte, (le40 b0 b1 b2 b3 b4).toNat =
    b0.toNat + 2 ^ 8 * b1.toNat + 2 ^ 16 * b2.toNat + 2 ^ 24 * b3.toNat + 2 ^ 32 * b4.toNat) ∧
  (∀ b0 b1 b2 b3 b4 : Byte, bytes40 (le40 b0 b1 b2 b3 b4) = [b0, b1, b2, b3, b4]) ∧
  (∀ w : InstrWord, le40 (byteOf w 0) (byteOf w 1) (byteOf w 2) (byteOf w 3) (byteOf w 4) = w)

/-- 30 R59: decode after encode gives back every well-formed record; the other direction holds exactly of canonical
words (that second clause is the spec's own derivation in R59). -/
def Obligations.DecodeAfterPackGivesTheRecordBack : Prop :=
  (∀ r : Record, r.wellFormed = true → decode (bytes40 (pack r)) = .ok r) ∧
  (∀ (w : InstrWord) (r : Record), decode (bytes40 w) = .ok r →
    (bytes40 (pack r) = bytes40 w ↔ canonical w = true))

/-- 30 R59 on instructions: the encoding of every instruction, every operand at every value its field admits,
decodes to that instruction. -/
def Obligations.DecodeAfterEncodeGivesTheInstructionBack : Prop :=
  ∀ i : Instr, i.wellFormed = true → decodeInstr (encode i) = .ok i

/-- 30 R46, R56, R58: each format, bit by bit, at every value of B and C. The bits above the C field are any: that
they are ignored is 92 D7 (log 8). -/
def Obligations.EveryFieldIsReadFromItsOwnBits : Prop :=
  (∀ (hi : BitVec 2) (c : BitVec 25) (b : BitVec 7),
    decodeInstr (bytes40 (formatF25 hi c b 56)) = .ok (.loadConst b c)) ∧
  (∀ (hi : BitVec 20) (c b : BitVec 7), decodeInstr (bytes40 (formatF7 hi c b 62)) = .ok (.readMem b c)) ∧
  (∀ (hi : BitVec 14) (c : BitVec 13) (b : BitVec 7),
    decodeInstr (bytes40 (formatF13 hi c b 54)) = .ok (.writeMem b c)) ∧
  (∀ (hi : BitVec 14) (c : BitVec 13) (b : BitVec 7),
    decodeInstr (bytes40 (formatF13 hi c b 59)) = .ok (.not b c))

/-- 30 R57: the Decoder's two failure modes, exactly, and no third. -/
def Obligations.DecoderFailsInExactlyTwoWays : Prop :=
  ∀ bs : List Byte,
    (decode bs = .error .structural ↔ bs.length ≠ 5) ∧
    (∀ a : OpcodeCode, decode bs = .error (.unknownOpcode a) ↔
      ∃ w : InstrWord, bs = bytes40 w ∧ a.toNat = w.toNat % 64 ∧ a.toNat ∉ [54, 56, 59, 62]) ∧
    (∀ w : InstrWord, bs = bytes40 w → w.toNat % 64 ∈ [54, 56, 59, 62] → ∃ r, decode bs = .ok r)

/-- 30 R47, R56: every record the Decoder returns is well-formed. -/
def Obligations.DecodedRecordsAreWellFormed : Prop :=
  ∀ (bs : List Byte) (r : Record), decode bs = .ok r → r.wellFormed = true

/-- 30 section 1 (R44): what is canonical, and that every word the Encoder produces is, with the zero bits of its
opcode. That an accepted command's name is one of the four exact strings is 92 D12 (log 13). -/
def Obligations.EncodedWordsHaveZeroHighBits : Prop :=
  (∀ w : InstrWord, canonical w = true ↔
    (w.toNat % 64 = 56 ∧ w.extractLsb' 38 2 = 0) ∨ (w.toNat % 64 = 62 ∧ w.extractLsb' 20 20 = 0) ∨
    ((w.toNat % 64 = 54 ∨ w.toNat % 64 = 59) ∧ w.extractLsb' 26 14 = 0)) ∧
  (∀ (cmd : Command) (bs : List Byte), encodeCommand cmd = .ok bs →
    ∃ w : InstrWord, bs = bytes40 w ∧ canonical w = true ∧
      (cmd.opcode = some "load_const" ∧ w.extractLsb' 38 2 = 0 ∨
       cmd.opcode = some "read_mem" ∧ w.extractLsb' 20 20 = 0 ∨
       (cmd.opcode = some "write_mem" ∨ cmd.opcode = some "not") ∧ w.extractLsb' 26 14 = 0))

/-- 30 R49: `Pack` masks its operands, also outside the bounds: B to 7 bits, C to the opcode's width. -/
def Obligations.PackMasksEachOperandToItsField : Prop :=
  ∀ r : Record, (pack r).toNat =
    (match r.opcode with | .loadConst => 56 | .readMem => 62 | .writeMem => 54 | .not => 59) +
    64 * (r.b % 128) +
    8192 * (r.c % (match r.opcode with | .loadConst => 33554432 | .readMem => 128 | .writeMem => 8192 | .not => 8192))

/-! ### The Encoder of symbolic commands -/

/-- 30 R50 to R54: the commands that are accepted, and the five bytes of each, exactly (exact comparison of names and
other operands ignored: 92 D12, D13, log 13). -/
def Obligations.EncodeAcceptsExactlyTheValidCommands : Prop :=
  ∀ (cmd : Command) (bs : List Byte), encodeCommand cmd = .ok bs ↔
    (∃ b c : Nat, b ≤ 127 ∧ c ≤ 33554431 ∧ cmd.opcode = some "load_const" ∧ cmd.destReg = some (b : Int) ∧
      cmd.value = some (c : Int) ∧ bs = bytes40 (formatF25 0 (BitVec.ofNat 25 c) (BitVec.ofNat 7 b) 56)) ∨
    (∃ b c : Nat, b ≤ 127 ∧ c ≤ 127 ∧ cmd.opcode = some "read_mem" ∧ cmd.srcReg = some (b : Int) ∧
      cmd.destReg = some (c : Int) ∧ bs = bytes40 (formatF7 0 (BitVec.ofNat 7 c) (BitVec.ofNat 7 b) 62)) ∨
    (∃ b c : Nat, b ≤ 127 ∧ c ≤ 8191 ∧ cmd.opcode = some "write_mem" ∧ cmd.srcReg = some (b : Int) ∧
      cmd.destAddr = some (c : Int) ∧ bs = bytes40 (formatF13 0 (BitVec.ofNat 13 c) (BitVec.ofNat 7 b) 54)) ∨
    (∃ b c : Nat, b ≤ 127 ∧ c ≤ 8191 ∧ cmd.opcode = some "not" ∧ cmd.srcReg = some (b : Int) ∧
      cmd.destAddr = some (c : Int) ∧ bs = bytes40 (formatF13 0 (BitVec.ofNat 13 c) (BitVec.ofNat 7 b) 59))

/-- 30 R51 to R54: the error of the first check that fails. That B's operand is checked before C's is 92 D11
(log 12); that the name is compared exactly and other operands are ignored is 92 D12, D13 (log 13). -/
def Obligations.EncodeReportsTheFirstFailedCheck : Prop :=
  (OperandName.high .destReg = 127 ∧ OperandName.high .srcReg = 127 ∧ OperandName.high .value = 33554431 ∧
    OperandName.high .destAddr = 8191) ∧
  ∀ cmd : Command,
    (cmd.opcode ∉ [some "load_const", some "read_mem", some "write_mem", some "not"] →
      encodeCommand cmd = .error (.unknownOpcode cmd.opcode)) ∧
    ∀ op : Opcode, cmd.opcode = some op.row.name →
      (cmd.operand op.operands.1 = none ∨ cmd.operand op.operands.2 = none →
        encodeCommand cmd = .error (.missingField op [op.operands.1, op.operands.2])) ∧
      ∀ b c : Int, cmd.operand op.operands.1 = some b → cmd.operand op.operands.2 = some c →
        (b < 0 ∨ op.operands.1.high < b →
          encodeCommand cmd = .error (.outOfRange op.operands.1 b 0 op.operands.1.high)) ∧
        (0 ≤ b → b ≤ op.operands.1.high → (c < 0 ∨ op.operands.2.high < c) →
          encodeCommand cmd = .error (.outOfRange op.operands.2 c 0 op.operands.2.high))

/-- 30 section 8 (R60): a field at its maximum is encoded and decoded exactly, one past the maximum is rejected. The
commands include those with operands the opcode does not use: that these are accepted is 92 D13 (log 13). -/
def Obligations.MaximaAreExactAndOnePastIsRejected : Prop :=
  ∀ (op : Opcode) (m : Nat),
    (op, m) ∈ [(Opcode.loadConst, 33554431), (.readMem, 127), (.writeMem, 8191), (.not, 8191)] →
    ∀ cmd : Command, cmd.opcode = some op.row.name →
      (∀ c : Nat, c ≤ m → cmd.operand op.operands.1 = some 127 → cmd.operand op.operands.2 = some (c : Int) →
        ∃ bs, encodeCommand cmd = .ok bs ∧
          decode bs = .ok { opcode := op, a := op.code.toNat, b := 127, c := c }) ∧
      (∀ b : Nat, b ≤ 127 → cmd.operand op.operands.1 = some (b : Int) → cmd.operand op.operands.2 = some (m : Int) →
        ∃ bs, encodeCommand cmd = .ok bs ∧
          decode bs = .ok { opcode := op, a := op.code.toNat, b := b, c := m }) ∧
      (∀ c : Int, cmd.operand op.operands.1 = some 128 → cmd.operand op.operands.2 = some c →
        ∃ e, encodeCommand cmd = .error e) ∧
      (∀ b : Int, cmd.operand op.operands.1 = some b → cmd.operand op.operands.2 = some ((m : Int) + 1) →
        ∃ e, encodeCommand cmd = .error e)

/-- 30 R55: all the bytes in order, or the index and the error of the first invalid command and no bytes (the empty
sequence, the case of no commands, is the spec's own derivation). -/
def Obligations.EncodeAllIsAllOrNothing : Prop :=
  (∀ (cmds : List Command) (bss : List (List Byte)), cmds.map encodeCommand = bss.map Except.ok →
    encodeAll cmds = .ok bss.flatten ∧ bss.flatten.length = 5 * cmds.length) ∧
  (∀ (before : List Command) (cmd : Command) (after : List Command) (e : ValidationError),
    (∀ c ∈ before, ∃ bs, encodeCommand c = .ok bs) → encodeCommand cmd = .error e →
      encodeAll (before ++ cmd :: after) = .error (before.length, e))

/-! ### The execute phase, per instruction -/

/-- 41 R85, the execute phase: `load_const` completes in every state; the result, and everything else unchanged. -/
def Obligations.LoadConstWritesOnlyItsRegister : Prop :=
  ∀ (b : RegIndex) (c : Imm) (s : State), ∃ t : State, exec (.loadConst b c) s = .next t ∧
    (t.readReg b).toNat = c.toNat ∧
    (∀ r : RegIndex, r ≠ b → t.readReg r = s.readReg r) ∧
    (∀ a : Nat, t.memRead a = s.memRead a) ∧
    t.pc = s.pc ∧ t.status = s.status ∧ t.haltCause = s.haltCause ∧ t.reports = s.reports ∧ t.stream = s.stream

/-- 42 R86, the execute phase: `read_mem` of an address inside data memory completes; the destination holds the word
read, and everything else is unchanged (B = C included: the address is the old value). -/
def Obligations.ReadMemInRangeWritesOnlyItsRegister : Prop :=
  ∀ (b d : RegIndex) (s : State), (s.readReg b).toNat ≤ 8191 → ∃ t : State, exec (.readMem b d) s = .next t ∧
    s.memRead (s.readReg b).toNat = some (t.readReg d) ∧
    (∀ r : RegIndex, r ≠ d → t.readReg r = s.readReg r) ∧
    (∀ a : Nat, t.memRead a = s.memRead a) ∧
    t.pc = s.pc ∧ t.status = s.status ∧ t.haltCause = s.haltCause ∧ t.reports = s.reports ∧ t.stream = s.stream

/-- 42 R87, the execute phase: `read_mem` of an address outside data memory also completes; it appends one
BoundsError and changes nothing else. That the destination keeps its value is 92 D10 (log 10); the data the report
carries are 92 D8 (log 9). -/
def Obligations.ReadMemOutOfRangeOnlyReports : Prop :=
  ∀ (b d : RegIndex) (s : State), 8191 < (s.readReg b).toNat → ∃ t : State, exec (.readMem b d) s = .next t ∧
    t.reports = s.reports ++ [.boundsError s.pc (s.readReg b)] ∧
    (∀ r : RegIndex, t.readReg r = s.readReg r) ∧
    (∀ a : Nat, t.memRead a = s.memRead a) ∧
    t.pc = s.pc ∧ t.status = s.status ∧ t.haltCause = s.haltCause ∧ t.stream = s.stream

/-- 43 R88, the execute phase: `write_mem` completes in every state; the word at C, and everything else unchanged. -/
def Obligations.WriteMemWritesOnlyItsWord : Prop :=
  ∀ (b : RegIndex) (c : DataAddr) (s : State), ∃ t : State, exec (.writeMem b c) s = .next t ∧
    t.memRead (absoluteAddress c).toNat = some (s.readReg b) ∧
    (∀ a : Nat, a ≠ (absoluteAddress c).toNat → t.memRead a = s.memRead a) ∧
    (∀ r : RegIndex, t.readReg r = s.readReg r) ∧
    t.pc = s.pc ∧ t.status = s.status ∧ t.haltCause = s.haltCause ∧ t.reports = s.reports ∧ t.stream = s.stream

/-- 44 R89, R90, the execute phase: `not` completes in every state; the word at C holds the complement as a number
and bit by bit, and everything else, the source register included, is unchanged. -/
def Obligations.NotWritesOnlyTheComplement : Prop :=
  ∀ (b : RegIndex) (c : DataAddr) (s : State), ∃ (t : State) (v : Word), exec (.not b c) s = .next t ∧
    t.memRead (absoluteAddress c).toNat = some v ∧
    v.toNat = 2 ^ 32 - 1 - (s.readReg b).toNat ∧
    (∀ k : Nat, k < 32 → v.getLsbD k = !(s.readReg b).getLsbD k) ∧
    (∀ a : Nat, a ≠ (absoluteAddress c).toNat → t.memRead a = s.memRead a) ∧
    (∀ r : RegIndex, t.readReg r = s.readReg r) ∧
    t.pc = s.pc ∧ t.status = s.status ∧ t.haltCause = s.haltCause ∧ t.reports = s.reports ∧ t.stream = s.stream

/-! ### The step -/

/-- 40 R71: a running step at bytes that decode to `i` is `exec i`, then the pc moved by 5, then the halt if the
stream ends there (the place of that test is 92 D4, log 5). -/
def Obligations.StepRunsTheDecodedInstruction : Prop :=
  ∀ (s : State) (i : Instr), s.status = .running → decodeInstr s.fetchBytes = .ok i →
    i.wellFormed = true ∧ ∃ t u : State, exec i s = .next t ∧ step s = .next u ∧
      u.pc = s.pc + 5 ∧ u.regs = t.regs ∧ u.mem = t.mem ∧ u.reports = t.reports ∧ u.stream = t.stream ∧
      (s.stream.length ≤ s.pc + 5 → u.status = .halted ∧ u.haltCause = .endOfStream) ∧
      (s.pc + 5 < s.stream.length → u.status = .running ∧ u.haltCause = s.haltCause)

/-- 40 R70, R77: a halted Executor has no step (92 D17; that the model answers a fault of that name is log 3). -/
def Obligations.HaltedExecutorHasNoStep : Prop :=
  ∀ s : State, s.status = .halted → step s = .fault .halted

/-- 41 R85: the step on the word of `load_const B, C`. -/
def Obligations.StepOnLoadConstWord : Prop :=
  ∀ (b : BitVec 7) (c : BitVec 25) (s : State), s.status = .running →
    s.fetchBytes = bytes40 (formatF25 0 c b 56) → ∃ t : State, step s = .next t ∧
      (t.readReg b).toNat = c.toNat ∧
      (∀ r : RegIndex, r ≠ b → t.readReg r = s.readReg r) ∧
      (∀ a : Nat, t.memRead a = s.memRead a) ∧
      t.pc = s.pc + 5 ∧ t.reports = s.reports ∧ t.stream = s.stream ∧
      (s.pc + 5 < s.stream.length → t.status = .running)

/-- 42 R86, R87: the step on the word of `read_mem B, C`, inside and outside data memory (the unchanged destination
of the skipped read is 92 D10, log 10). -/
def Obligations.StepOnReadMemWord : Prop :=
  ∀ (b d : BitVec 7) (s : State), s.status = .running →
    s.fetchBytes = bytes40 (formatF7 0 d b 62) → ∃ t : State, step s = .next t ∧
      (if (s.readReg b).toNat ≤ 8191 then
        s.memRead (s.readReg b).toNat = some (t.readReg d) ∧ t.reports = s.reports
      else t.readReg d = s.readReg d ∧ t.reports = s.reports ++ [.boundsError s.pc (s.readReg b)]) ∧
      (∀ r : RegIndex, r ≠ d → t.readReg r = s.readReg r) ∧
      (∀ a : Nat, t.memRead a = s.memRead a) ∧
      t.pc = s.pc + 5 ∧ t.stream = s.stream ∧
      (s.pc + 5 < s.stream.length → t.status = .running)

/-- 43 R88: the step on the word of `write_mem B, C`. -/
def Obligations.StepOnWriteMemWord : Prop :=
  ∀ (b : BitVec 7) (c : BitVec 13) (s : State), s.status = .running →
    s.fetchBytes = bytes40 (formatF13 0 c b 54) → ∃ t : State, step s = .next t ∧
      t.memRead c.toNat = some (s.readReg b) ∧
      (∀ a : Nat, a ≠ c.toNat → t.memRead a = s.memRead a) ∧
      (∀ r : RegIndex, t.readReg r = s.readReg r) ∧
      t.pc = s.pc + 5 ∧ t.reports = s.reports ∧ t.stream = s.stream ∧
      (s.pc + 5 < s.stream.length → t.status = .running)

/-- 44 R89: the step on the word of `not B, C`. -/
def Obligations.StepOnNotWord : Prop :=
  ∀ (b : BitVec 7) (c : BitVec 13) (s : State), s.status = .running →
    s.fetchBytes = bytes40 (formatF13 0 c b 59) → ∃ (t : State) (v : Word), step s = .next t ∧
      t.memRead c.toNat = some v ∧ v.toNat = 2 ^ 32 - 1 - (s.readReg b).toNat ∧
      (∀ a : Nat, a ≠ c.toNat → t.memRead a = s.memRead a) ∧
      (∀ r : RegIndex, t.readReg r = s.readReg r) ∧
      t.pc = s.pc + 5 ∧ t.reports = s.reports ∧ t.stream = s.stream ∧
      (s.pc + 5 < s.stream.length → t.status = .running)

/-- 40 R74, 60 R107: an unknown opcode code halts the run, appends its report and changes nothing else; the pc that
stays is 92 D6 (log 7), the data of the report 92 D8 (log 9). -/
def Obligations.UnknownOpcodeHaltsAndOnlyReports : Prop :=
  ∀ (s : State) (w : InstrWord), s.status = .running → s.fetchBytes = bytes40 w →
    w.toNat % 64 ∉ [54, 56, 59, 62] →
      step s = .next { s with
        status := .halted
        haltCause := .unknownOpcode
        reports := s.reports ++ [.unknownOpcodeError s.pc (BitVec.ofNat 6 (w.toNat % 64))] }

/-- 40 R73, 60 R107: 1 to 4 bytes left halt the run, append the report and change nothing else, and by the invariant
this happens only at the one offset the spec names (92 D5, D6, D8; logs 6, 7, 9). -/
def Obligations.PartialFetchHaltsAndOnlyReports : Prop :=
  ∀ s : State, s.status = .running → s.pc < s.stream.length → s.stream.length < s.pc + 5 →
    step s = .next { s with
      status := .halted
      haltCause := .structural
      reports := s.reports ++ [.structuralError s.pc (s.stream.length - s.pc)] } ∧
    (s.Inv → s.stream.length % 5 ≠ 0 ∧ s.pc = 5 * (s.stream.length / 5))

/-- 40 R71, R72, R73, R74, R77: the three events that halt a run, exactly, each with its cause; the pc of a normal
halt is the first multiple of 5 that is at least L (92 D4, D5, D6, D8; logs 5, 6, 7, 9). -/
def Obligations.OnlyThreeEventsHaltTheRun : Prop :=
  ∀ s t : State, step s = .next t →
    (t.status = .halted ↔
      s.stream.length ≤ s.pc + 5 ∨ ∃ a, decodeInstr s.fetchBytes = .error (.unknownOpcode a)) ∧
    (t.status = .halted →
      (t.haltCause = .endOfStream ∧ s.stream.length ≤ t.pc) ∨
      (t.haltCause = .structural ∧ t.pc < s.stream.length ∧ s.stream.length < t.pc + 5) ∨
      (t.haltCause = .unknownOpcode ∧ ∃ a, decodeInstr s.fetchBytes = .error (.unknownOpcode a))) ∧
    (s.Inv → t.haltCause = .endOfStream → ∀ m : Nat, m % 5 = 0 → s.stream.length ≤ m → t.pc ≤ m)

/-- 40 R76, R80, 10 R13: a step that executes an instruction moves the pc by 5; a step that executes none leaves it
and halts the run (that a fatal error leaves it is 92 D6, log 7). -/
def Obligations.PcMovesByFiveOrTheRunHalts : Prop :=
  ∀ s t : State, step s = .next t →
    (∃ i, decodeInstr s.fetchBytes = .ok i ∧ t.pc = s.pc + 5) ∨
    ((∀ i, decodeInstr s.fetchBytes ≠ .ok i) ∧ t.pc = s.pc ∧ t.status = .halted)

/-- 10 section 1 (R10): the register file is "mutated only by `load_const` and `read_mem`", each in its destination
only. That a `read_mem` changes it only with its address in range is 42 R87, by 92 D10 (log 10). -/
def Obligations.OnlyLoadConstAndReadMemChangeARegister : Prop :=
  ∀ (s t : State) (r : RegIndex), step s = .next t → t.readReg r ≠ s.readReg r →
    (∃ c, decodeInstr s.fetchBytes = .ok (.loadConst r c)) ∨
    (∃ b, decodeInstr s.fetchBytes = .ok (.readMem b r) ∧ (s.readReg b).toNat ≤ 8191)

/-- 10 R12: the data memory is "mutated only by `write_mem` and `not`", each at its address only. -/
def Obligations.OnlyWriteMemAndNotChangeAWord : Prop :=
  ∀ (s t : State) (a : Nat), step s = .next t → t.memRead a ≠ s.memRead a →
    ∃ (b : RegIndex) (c : DataAddr), c.toNat = a ∧
      (decodeInstr s.fetchBytes = .ok (.writeMem b c) ∨ decodeInstr s.fetchBytes = .ok (.not b c))

/-- 10 R16, 60 R104, R106: a step appends at most one report, and which one (its data are 92 D8, log 9). -/
def Obligations.AStepAppendsAtMostOneReport : Prop :=
  ∀ s t : State, step s = .next t →
    t.reports = s.reports ∨
    (∃ b d, decodeInstr s.fetchBytes = .ok (.readMem b d) ∧ 8191 < (s.readReg b).toNat ∧
      t.reports = s.reports ++ [.boundsError s.pc (s.readReg b)]) ∨
    (s.pc < s.stream.length ∧ s.stream.length < s.pc + 5 ∧
      t.reports = s.reports ++ [.structuralError s.pc (s.stream.length - s.pc)]) ∨
    (∃ a, decodeInstr s.fetchBytes = .error (.unknownOpcode a) ∧
      t.reports = s.reports ++ [.unknownOpcodeError s.pc a])

/-- 20 R32, 40 R75: a step sees of the stream only the five bytes at the pc and the length, and never writes it. -/
def Obligations.StepSeesOnlyTheBytesAtThePc : Prop :=
  ∀ (s t : State) (other : List Byte), other.length = s.stream.length →
    (other.drop s.pc).take 5 = (s.stream.drop s.pc).take 5 → step s = .next t →
      t.stream = s.stream ∧ step { s with stream := other } = .next { t with stream := other }

/-! ### Sequences of instructions -/

/-- 20 R30 (a), 70 R124: after a `write_mem` or a `not`, and any instructions that do not write the word, memory
holds what was written; where no instruction writes it, what it held. -/
def Obligations.MemoryHoldsTheLatestWrite : Prop :=
  ∀ (rest : List Instr) (a : DataAddr), rest.all (fun i => !writesMem a.toNat i) = true → ∀ s : State,
    (∃ t, execAll rest s = .next t ∧ t.memRead a.toNat = s.memRead a.toNat) ∧
    (∀ b, ∃ t, execAll (.writeMem b a :: rest) s = .next t ∧ t.memRead a.toNat = some (s.readReg b)) ∧
    (∀ b, ∃ t v, execAll (.not b a :: rest) s = .next t ∧ t.memRead a.toNat = some v ∧
      v.toNat = 2 ^ 32 - 1 - (s.readReg b).toNat)

/-- 20 R30 (b), 70 R124: after a `load_const` or a `read_mem` in range, and any instructions that do not write the
register, it holds what was loaded; where no instruction writes it, what it held. -/
def Obligations.RegisterHoldsTheLatestLoad : Prop :=
  ∀ (rest : List Instr) (r : RegIndex), rest.all (fun i => !writesReg r i) = true → ∀ s : State,
    (∃ t, execAll rest s = .next t ∧ t.readReg r = s.readReg r) ∧
    (∀ c, ∃ t, execAll (.loadConst r c :: rest) s = .next t ∧ (t.readReg r).toNat = c.toNat) ∧
    (∀ b, (s.readReg b).toNat ≤ 8191 → ∃ t, execAll (.readMem b r :: rest) s = .next t ∧
      s.memRead (s.readReg b).toNat = some (t.readReg r))

/-- 44 R89 (d), R91: `not`, then `read_mem` of the result through any pointer register into any register, then `not`
again leaves the original value in memory. -/
def Obligations.NotTwiceThroughMemoryRestoresTheValue : Prop :=
  ∀ (b p d : RegIndex) (a q : DataAddr) (s : State),
    ∃ t, execAll [.not b a, .loadConst p (a.setWidth 25), .readMem p d, .not d q] s = .next t ∧
      t.memRead q.toNat = some (s.readReg b) ∧ t.reports = s.reports

/-! ### Runs -/

/-- 40 R78: from every state the Executor halts, within `(L - pc) / 5 + 1` steps, and stays halted. -/
def Obligations.EveryRunHaltsWithinTheBound : Prop :=
  ∀ s : State, ∃ t : State, t.status = .halted ∧
    ∀ n : Nat, (s.stream.length - s.pc) / 5 + 1 ≤ n → runFor n s = .next t

/-- 40 R78: a stream of `n` instructions takes exactly `n` steps, one instruction each, in order (for `n = 0` the
one step that halts executes none). That the run has already halted after the `n`-th step, the halt being no step of
its own, is 92 D4 (log 5). -/
def Obligations.WellFormedStreamTakesOneStepEach : Prop :=
  ∀ is : List Instr,
    (∀ k : Nat, k < is.length → ∃ t, runFor k (State.load (is.flatMap encode)) = .next t ∧
      t.status = .running ∧ t.pc = 5 * k ∧ some t.fetchBytes = (is[k]?).map encode) ∧
    (0 < is.length → ∃ t, runFor is.length (State.load (is.flatMap encode)) = .next t ∧
      t.status = .halted ∧ t.pc = 5 * is.length)

/-- 40 R71, R78, R80: the fetch-decode-execute loop on the encoding of a program is the straight-line execution of
its instructions, each once and in order, and then the normal halt (that of the empty stream is 92 D4, log 5). -/
def Obligations.RunOfAProgramIsItsStraightLineExecution : Prop :=
  ∀ is : List Instr, ∃ t : State,
    execAll is (State.load (is.flatMap encode)) = .next t ∧ t.pc = 5 * is.length ∧ t.status = .running ∧
    run (is.flatMap encode) = .next { t with status := .halted, haltCause := .endOfStream }

/-- 40 R74, R78, R80: the same up to the first unknown opcode code, which ends the run there; what follows is never
executed (the pc and the report's data: 92 D6, D8, logs 7, 9). -/
def Obligations.FirstUnknownOpcodeEndsTheRun : Prop :=
  ∀ (is : List Instr) (w : InstrWord) (rest : List Byte), w.toNat % 64 ∉ [54, 56, 59, 62] → ∃ t : State,
    execAll is (State.load (is.flatMap encode ++ bytes40 w ++ rest)) = .next t ∧ t.pc = 5 * is.length ∧
    run (is.flatMap encode ++ bytes40 w ++ rest) = .next { t with
      status := .halted
      haltCause := .unknownOpcode
      reports := t.reports ++ [.unknownOpcodeError (5 * is.length) (BitVec.ofNat 6 (w.toNat % 64))] }

/-- 40 R73: the whole instructions before a partial tail run first, then the StructuralError ends the run
(92 D5, D6, D8; logs 6, 7, 9). -/
def Obligations.PartialTailEndsTheRunAfterTheWholeInstructions : Prop :=
  ∀ (is : List Instr) (tail : List Byte), 1 ≤ tail.length → tail.length ≤ 4 → ∃ t : State,
    execAll is (State.load (is.flatMap encode ++ tail)) = .next t ∧ t.pc = 5 * is.length ∧
    run (is.flatMap encode ++ tail) = .next { t with
      status := .halted
      haltCause := .structural
      reports := t.reports ++ [.structuralError (5 * is.length) tail.length] }

/-- 30 R65: a stream `EncodeAll` produced runs to its end and raises neither fatal error (R65 is the spec's own
derivation; the normal halt of the empty stream is 92 D4, log 5). -/
def Obligations.EncodedStreamsNeverFail : Prop :=
  ∀ (cmds : List Command) (bs : List Byte), encodeAll cmds = .ok bs →
    bs.length = 5 * cmds.length ∧ ∃ t : State, run bs = .next t ∧ t.status = .halted ∧
      t.haltCause = .endOfStream ∧ t.failed = false ∧ t.pc = bs.length ∧
      ∀ r ∈ t.reports, r.isFatal = false

/-! ### The Memory Exporter -/

/-- 20 R33: every word of the range, once, in ascending order (the order is 92 D18, log 14). -/
def Obligations.ExportListsEveryWordOfTheRange : Prop :=
  ∀ (s : State) (first last : Nat), first ≤ last → last ≤ 8191 →
    ∃ rec, s.exportRange first last = .ok rec ∧ rec.first = first ∧ rec.last = last ∧
      rec.entries.length = last - first + 1 ∧
      ∀ k : Nat, first + k ≤ last → ∃ v, s.memRead (first + k) = some v ∧
        rec.entries[k]? = some { address := first + k, value := v.toNat, hex := v.toNat }

/-- 20 R34: every other range is the error and no entries (the error's name is 92 D9, log 9). -/
def Obligations.ExportOfABadRangeIsAnError : Prop :=
  ∀ (s : State) (first last : Int),
    s.exportRange first last = .error (.range first last) ↔
      last < first ∨ first < 0 ∨ 8191 < first ∨ last < 0 ∨ 8191 < last
end

