-- ==== Sys2Proof/Laws/Decode.lean ====
section
/-! SUPPORT. The small lemmas of the ISA Table, of records and of bytes. -/

namespace Sys2Proof

/-- Code and name are inverse on the table. -/
@[simp] theorem Opcode.ofCode_code (op : Opcode) : Opcode.ofCode op.code = some op := by
  cases op <;> decide

/-- A code the table holds is its opcode's. -/
theorem Opcode.code_of_ofCode {a : OpcodeCode} {op : Opcode} (h : Opcode.ofCode a = some op) : op.code = a := by
  revert a op
  decide

/-- A symbolic name and its opcode are inverse on the table. -/
@[simp] theorem Opcode.ofName_name (op : Opcode) : Opcode.ofName op.row.name = some op := by
  cases op <;> decide

/-- A name the table holds is its opcode's. -/
theorem Opcode.name_of_ofName {n : String} {op : Opcode} (h : Opcode.ofName n = some op) : op.row.name = n := by
  simp only [Opcode.ofName, Option.map_eq_some_iff] at h
  obtain ⟨r, hr, rfl⟩ := h
  have hn := List.find?_some hr
  have hm := List.mem_of_find?_eq_some hr
  simp only [isaTable, List.mem_cons, List.not_mem_nil, or_false] at hm
  rcases hm with rfl | rfl | rfl | rfl <;> exact eq_of_beq hn

/-- The record of an instruction stands for that instruction. -/
@[simp] theorem Instr.toInstr_toRecord (i : Instr) : i.toRecord.toInstr = i := by
  cases i <;> simp [Instr.toRecord, Instr.opcode, Instr.fieldB, Instr.fieldC, Record.toInstr]

/-- The operands of an instruction have the widths of their fields, so its record is well-formed. -/
theorem Instr.wellFormed_toRecord (i : Instr) : i.toRecord.wellFormed = true := by
  cases i with
  | loadConst b c | readMem b c | writeMem b c | not b c =>
    have hb := b.isLt
    have hc := c.isLt
    simp only [Record.wellFormed, Record.codeOk, Record.bOk, Record.cOk, Instr.toRecord, Instr.opcode, Instr.fieldB,
      Instr.fieldC, Opcode.cWidth, Opcode.row, beq_self_eq_true, Bool.true_and, Bool.and_eq_true]
    exact ⟨decide_eq_true (Nat.le_of_lt_succ hb), decide_eq_true hc⟩

/-- The three checks of a well-formed record. -/
theorem Record.wellFormed_iff (r : Record) :
    r.wellFormed = true ↔ r.a = r.opcode.code.toNat ∧ r.b ≤ 127 ∧ r.c < 2 ^ r.opcode.cWidth := by
  simp [Record.wellFormed, Record.codeOk, Record.bOk, Record.cOk, and_assoc]

@[simp] theorem bytes40_length (w : InstrWord) : (bytes40 w).length = 5 := rfl

/-- What `decodeWord` answers, both cases. -/
theorem decodeWord_cases (w : InstrWord) :
    (Opcode.ofCode (BitVec.ofNat 6 (fieldNat w 0 6)) = none ∧
      decodeWord w = .error (.unknownOpcode (BitVec.ofNat 6 (fieldNat w 0 6)))) ∨
    ∃ op, Opcode.ofCode (BitVec.ofNat 6 (fieldNat w 0 6)) = some op ∧
      decodeWord w = .ok { opcode := op, a := op.code.toNat, b := fieldNat w 6 7, c := fieldNat w 13 op.cWidth } := by
  unfold decodeWord
  cases h : Opcode.ofCode (BitVec.ofNat 6 (fieldNat w 0 6)) with
  | none => exact .inl ⟨rfl, by simp only [h]⟩
  | some op => exact .inr ⟨op, rfl, by simp only [h, Opcode.code_of_ofCode h]⟩

/-- `decode` of five bytes is `decodeWord` of their word. -/
@[simp] theorem decode_five (b0 b1 b2 b3 b4 : Byte) :
    decode [b0, b1, b2, b3, b4] = decodeWord (le40 b0 b1 b2 b3 b4) := rfl

/-- `decodeInstr` answers an instruction exactly where `decode` answers its record. -/
theorem decodeInstr_ok_iff (bs : List Byte) (i : Instr) :
    decodeInstr bs = .ok i ↔ ∃ r, decode bs = .ok r ∧ r.toInstr = i := by
  unfold decodeInstr
  cases decode bs <;> simp

/-- `decodeInstr` fails exactly where `decode` does, with the same error. -/
theorem decodeInstr_error_iff (bs : List Byte) (e : DecodeError) :
    decodeInstr bs = .error e ↔ decode bs = .error e := by
  unfold decodeInstr
  cases decode bs <;> simp

end Sys2Proof
end

