-- ==== Sys2Proof/Laws/Encoder.lean ====
section
/-! SUPPORT. When each check of the Encoder passes: one lemma per check, and the one for all three together. -/

namespace Sys2Proof

/-- The range check passes exactly inside the bounds. -/
theorem checkRange_ok_iff (o : OperandName) (v : Int) (n : Nat) :
    checkRange o v = .ok n ↔ v = n ∧ n ≤ o.high := by
  unfold checkRange
  split
  · simp only [Except.ok.injEq]
    omega
  · simp only [reduceCtorEq, false_iff]
    omega

/-- The opcode check passes exactly on the four names. -/
theorem checkOpcode_ok_iff (n : Option String) (op : Opcode) :
    checkOpcode n = .ok op ↔ n = some op.row.name := by
  unfold checkOpcode
  cases n with
  | none => simp
  | some n =>
    cases h : Opcode.ofName n with
    | none =>
      simp only [h, reduceCtorEq, Option.some.injEq, false_iff]
      rintro rfl
      simp at h
    | some o =>
      simp only [h, Except.ok.injEq, Option.some.injEq]
      constructor
      · rintro rfl
        exact (Opcode.name_of_ofName h).symm
      · rintro rfl
        simpa using h.symm

/-- The presence check passes exactly where both required operands are present. -/
theorem checkPresence_ok_iff (op : Opcode) (cmd : Command) (b c : Int) :
    checkPresence op cmd = .ok (b, c) ↔ cmd.operand op.operands.1 = some b ∧ cmd.operand op.operands.2 = some c := by
  unfold checkPresence
  cases cmd.operand op.operands.1 <;> cases cmd.operand op.operands.2 <;> simp

/-- Both range checks pass exactly inside both bounds. -/
theorem checkRanges_ok_iff (op : Opcode) (b c : Int) (m n : Nat) :
    checkRanges op b c = .ok (m, n) ↔
      (b = m ∧ m ≤ op.operands.1.high) ∧ (c = n ∧ n ≤ op.operands.2.high) := by
  rw [← checkRange_ok_iff, ← checkRange_ok_iff]
  unfold checkRanges
  cases checkRange op.operands.1 b <;> cases checkRange op.operands.2 c <;> simp

/-- The three checks pass exactly on a known name with both required operands present and in range, and the record
is made of them. -/
theorem validate_ok_iff (cmd : Command) (r : Record) :
    validate cmd = .ok r ↔ ∃ (op : Opcode) (b c : Nat), cmd.opcode = some op.row.name ∧
      cmd.operand op.operands.1 = some (b : Int) ∧ cmd.operand op.operands.2 = some (c : Int) ∧
      b ≤ op.operands.1.high ∧ c ≤ op.operands.2.high ∧
      r = { opcode := op, a := op.code.toNat, b := b, c := c } := by
  unfold validate
  constructor
  · intro h
    split at h
    · cases h
    next op ho =>
    split at h
    · cases h
    next bv cv hp =>
    split at h
    · cases h
    next b c hr =>
    cases h
    rw [checkRanges_ok_iff] at hr
    rw [checkPresence_ok_iff] at hp
    exact ⟨op, b, c, (checkOpcode_ok_iff _ _).mp ho, hr.1.1 ▸ hp.1, hr.2.1 ▸ hp.2, hr.1.2, hr.2.2, rfl⟩
  · rintro ⟨op, b, c, h1, h2, h3, h4, h5, rfl⟩
    rw [(checkOpcode_ok_iff _ _).mpr h1]
    simp only [(checkPresence_ok_iff _ _ _ _).mpr ⟨h2, h3⟩, (checkRanges_ok_iff _ _ _ _ _).mpr ⟨⟨rfl, h4⟩, rfl, h5⟩]

/-- The bytes of an accepted command are those of its validated record. -/
theorem encodeCommand_ok_iff (cmd : Command) (bs : List Byte) :
    encodeCommand cmd = .ok bs ↔ ∃ r, validate cmd = .ok r ∧ bs = bytes40 (pack r) := by
  unfold encodeCommand
  cases validate cmd <;> simp [eq_comm]

end Sys2Proof
end

