-- ==== Sys2Proof/Laws/Memory.lean ====
section
/-! SUPPORT. Data memory: what a read gives after a write, and that every operation keeps the canonical form. -/

namespace Sys2Proof.Machine

theorem Memory.lookup_cons (b : Nat) (w : Word) (m : Memory) (a : Nat) :
    Memory.lookup ((b, w) :: m) a = if a = b then w else Memory.lookup m a := rfl

theorem Memory.erase_cons (b : Nat) (w : Word) (m : Memory) (a : Nat) :
    Memory.erase ((b, w) :: m) a = if b = a then Memory.erase m a else (b, w) :: Memory.erase m a := by
  by_cases h : b = a <;> simp [Memory.erase, h]

theorem Memory.insert_cons (b : Nat) (w : Word) (m : Memory) (a : Nat) (v : Word) :
    Memory.insert ((b, w) :: m) a v =
      if a < b then (a, v) :: (b, w) :: m else (b, w) :: Memory.insert m a v := rfl

/-- Reading after an erase. -/
theorem Memory.lookup_erase (m : Memory) (a x : Nat) :
    Memory.lookup (m.erase a) x = if x = a then Memory.unlisted else Memory.lookup m x := by
  induction m with
  | nil => simp [Memory.erase, Memory.lookup]
  | cons c m ih =>
    obtain ⟨b, w⟩ := c
    rw [Memory.erase_cons]
    by_cases hb : b = a
    · subst hb
      rw [if_pos rfl, ih, Memory.lookup_cons]
      split <;> rfl
    · by_cases hx : x = a
      · subst hx
        simp [hb, Memory.lookup_cons, ih, Ne.symm hb]
      · simp [hb, hx, Memory.lookup_cons, ih]

/-- No entry for an address is left after its erase. -/
theorem Memory.not_mem_erase (m : Memory) (a : Nat) : ∀ c ∈ m.erase a, c.1 ≠ a := by
  intro c hc
  simpa [Memory.erase] using (List.mem_filter.mp hc).2

/-- Reading after an insert at an address that has no entry. -/
theorem Memory.lookup_insert (m : Memory) (a : Nat) (v : Word) (x : Nat) (h : ∀ c ∈ m, c.1 ≠ a) :
    Memory.lookup (m.insert a v) x = if x = a then v else Memory.lookup m x := by
  induction m with
  | nil => simp [Memory.insert, Memory.lookup]
  | cons c m ih =>
    obtain ⟨b, w⟩ := c
    have hb : b ≠ a := h (b, w) (by simp)
    have ih := ih (fun c hc => h c (by simp [hc]))
    rw [Memory.insert_cons]
    split
    · simp [Memory.lookup_cons]
    · by_cases hx : x = a
      · subst hx
        simp [Memory.lookup_cons, ih, Ne.symm hb]
      · simp [Memory.lookup_cons, ih, hx]

/-- Reading after a write: the value written at its address, the old word at every other. -/
theorem Memory.lookup_update (m : Memory) (a : Nat) (v : Word) (x : Nat) :
    Memory.lookup (m.update a v) x = if x = a then v else Memory.lookup m x := by
  unfold Memory.update
  split
  · next h => rw [Memory.lookup_erase, h]
  · rw [Memory.lookup_insert _ _ _ _ (Memory.not_mem_erase m a), Memory.lookup_erase]
    split <;> rfl

theorem Memory.wfFrom_cons (lo b : Nat) (w : Word) (m : Memory) :
    Memory.wfFrom lo ((b, w) :: m) = true ↔
      lo ≤ b ∧ b < 8192 ∧ w ≠ Memory.unlisted ∧ Memory.wfFrom (b + 1) m = true := by
  simp only [Memory.wfFrom, Config.memWords, Bool.and_eq_true, decide_eq_true_eq, and_assoc]

/-- The canonical form from an address holds from every lower one. -/
theorem Memory.wfFrom_mono {lo lo' : Nat} (h : lo ≤ lo') {m : Memory} (hm : Memory.wfFrom lo' m = true) :
    Memory.wfFrom lo m = true := by
  cases m with
  | nil => rfl
  | cons c m =>
    obtain ⟨b, w⟩ := c
    rw [Memory.wfFrom_cons] at hm ⊢
    exact ⟨by omega, hm.2⟩

/-- An erase keeps the canonical form. -/
theorem Memory.wfFrom_erase (m : Memory) (a lo : Nat) (h : Memory.wfFrom lo m = true) :
    Memory.wfFrom lo (m.erase a) = true := by
  induction m generalizing lo with
  | nil => rfl
  | cons c m ih =>
    obtain ⟨b, w⟩ := c
    rw [Memory.wfFrom_cons] at h
    rw [Memory.erase_cons]
    split
    · exact Memory.wfFrom_mono (by omega) (ih (b + 1) h.2.2.2)
    · rw [Memory.wfFrom_cons]
      exact ⟨h.1, h.2.1, h.2.2.1, ih (b + 1) h.2.2.2⟩

/-- An insert at an address that has no entry keeps the canonical form. -/
theorem Memory.wfFrom_insert (m : Memory) (a lo : Nat) (v : Word) (h : Memory.wfFrom lo m = true)
    (hn : ∀ c ∈ m, c.1 ≠ a) (hlo : lo ≤ a) (ha : a < 8192) (hv : v ≠ Memory.unlisted) :
    Memory.wfFrom lo (m.insert a v) = true := by
  induction m generalizing lo with
  | nil => exact (Memory.wfFrom_cons ..).mpr ⟨hlo, ha, hv, rfl⟩
  | cons c m ih =>
    obtain ⟨b, w⟩ := c
    rw [Memory.wfFrom_cons] at h
    have hb : b ≠ a := hn (b, w) (by simp)
    rw [Memory.insert_cons]
    split
    · rw [Memory.wfFrom_cons, Memory.wfFrom_cons]
      exact ⟨hlo, ha, hv, by omega, h.2⟩
    · rw [Memory.wfFrom_cons]
      exact ⟨h.1, h.2.1, h.2.2.1, ih (b + 1) h.2.2.2 (fun c hc => hn c (by simp [hc])) (by omega)⟩

/-- A write inside the address space keeps the canonical form. -/
theorem Memory.wf_update (m : Memory) (a : Nat) (v : Word) (h : Memory.wf m = true) (ha : a < 8192) :
    Memory.wf (m.update a v) = true := by
  unfold Memory.update Memory.wf at *
  split
  · exact Memory.wfFrom_erase m a 0 h
  · next hv =>
    exact Memory.wfFrom_insert _ _ _ _ (Memory.wfFrom_erase m a 0 h) (Memory.not_mem_erase m a) (Nat.zero_le a) ha hv

/-- The memory at reset has the canonical form. -/
theorem Memory.wf_reset : Memory.wf State.reset.mem = true := rfl

/-- `memWrite` keeps the canonical form: its address is 13 bits. -/
theorem State.memWrite_wf (s : State) (a : DataAddr) (v : Word) (h : Memory.wf s.mem = true) :
    Memory.wf (s.memWrite a v).mem = true :=
  Memory.wf_update s.mem a.toNat v h (Nat.lt_of_lt_of_le (BitVec.isLt a) (by decide))

/-- What `memRead` answers inside the address space. -/
theorem State.memRead_of_le (s : State) {a : Nat} (h : a ≤ 8191) :
    s.memRead a = some (Memory.lookup s.mem a) := by
  simp [State.memRead, Config.addrMax, h]

/-- `memRead` is not defined outside the address space. -/
theorem State.memRead_of_gt (s : State) {a : Nat} (h : 8191 < a) : s.memRead a = none := by
  simp [State.memRead, Config.addrMax]
  omega

end Sys2Proof.Machine
end

