-- ==== Sys2Proof/Laws/State.lean ====
section
/-! SUPPORT. One lemma per field per update of the state, so that no later proof unfolds a record update. -/

namespace Sys2Proof.Machine

/-! ### `writeReg` -/

@[simp] theorem State.writeReg_mem (s : State) (i : RegIndex) (v : Word) : (s.writeReg i v).mem = s.mem := rfl
@[simp] theorem State.writeReg_pc (s : State) (i : RegIndex) (v : Word) : (s.writeReg i v).pc = s.pc := rfl
@[simp] theorem State.writeReg_status (s : State) (i : RegIndex) (v : Word) :
    (s.writeReg i v).status = s.status := rfl
@[simp] theorem State.writeReg_haltCause (s : State) (i : RegIndex) (v : Word) :
    (s.writeReg i v).haltCause = s.haltCause := rfl
@[simp] theorem State.writeReg_reports (s : State) (i : RegIndex) (v : Word) :
    (s.writeReg i v).reports = s.reports := rfl
@[simp] theorem State.writeReg_stream (s : State) (i : RegIndex) (v : Word) :
    (s.writeReg i v).stream = s.stream := rfl
@[simp] theorem State.writeReg_memRead (s : State) (i : RegIndex) (v : Word) (a : Nat) :
    (s.writeReg i v).memRead a = s.memRead a := rfl

/-- A read after a write of the same register gives the value written. -/
@[simp] theorem State.readReg_writeReg_same (s : State) (i : RegIndex) (v : Word) :
    (s.writeReg i v).readReg i = v := by
  simp [State.readReg, State.writeReg]

/-- A write of a register leaves every other register alone. -/
theorem State.readReg_writeReg_ne (s : State) {i j : RegIndex} (v : Word) (h : j ≠ i) :
    (s.writeReg i v).readReg j = s.readReg j := by
  have h' : i.toNat ≠ j.toNat := fun e => h (BitVec.eq_of_toNat_eq e.symm)
  simp [State.readReg, State.writeReg, h']

/-- The registers after a write, both cases at once. -/
theorem State.readReg_writeReg (s : State) (i j : RegIndex) (v : Word) :
    (s.writeReg i v).readReg j = if j = i then v else s.readReg j := by
  by_cases h : j = i
  · simp [h]
  · simp [h, State.readReg_writeReg_ne]

/-! ### `memWrite` -/

@[simp] theorem State.memWrite_regs (s : State) (a : DataAddr) (v : Word) : (s.memWrite a v).regs = s.regs := rfl
@[simp] theorem State.memWrite_readReg (s : State) (a : DataAddr) (v : Word) (i : RegIndex) :
    (s.memWrite a v).readReg i = s.readReg i := rfl
@[simp] theorem State.memWrite_mem (s : State) (a : DataAddr) (v : Word) :
    (s.memWrite a v).mem = Memory.update s.mem a.toNat v := rfl
@[simp] theorem State.memWrite_pc (s : State) (a : DataAddr) (v : Word) : (s.memWrite a v).pc = s.pc := rfl
@[simp] theorem State.memWrite_status (s : State) (a : DataAddr) (v : Word) :
    (s.memWrite a v).status = s.status := rfl
@[simp] theorem State.memWrite_haltCause (s : State) (a : DataAddr) (v : Word) :
    (s.memWrite a v).haltCause = s.haltCause := rfl
@[simp] theorem State.memWrite_reports (s : State) (a : DataAddr) (v : Word) :
    (s.memWrite a v).reports = s.reports := rfl
@[simp] theorem State.memWrite_stream (s : State) (a : DataAddr) (v : Word) :
    (s.memWrite a v).stream = s.stream := rfl

/-! ### `report` -/

@[simp] theorem State.report_regs (s : State) (r : Report) : (s.report r).regs = s.regs := rfl
@[simp] theorem State.report_readReg (s : State) (r : Report) (i : RegIndex) :
    (s.report r).readReg i = s.readReg i := rfl
@[simp] theorem State.report_mem (s : State) (r : Report) : (s.report r).mem = s.mem := rfl
@[simp] theorem State.report_memRead (s : State) (r : Report) (a : Nat) :
    (s.report r).memRead a = s.memRead a := rfl
@[simp] theorem State.report_pc (s : State) (r : Report) : (s.report r).pc = s.pc := rfl
@[simp] theorem State.report_status (s : State) (r : Report) : (s.report r).status = s.status := rfl
@[simp] theorem State.report_haltCause (s : State) (r : Report) : (s.report r).haltCause = s.haltCause := rfl
@[simp] theorem State.report_reports (s : State) (r : Report) : (s.report r).reports = s.reports ++ [r] := rfl
@[simp] theorem State.report_stream (s : State) (r : Report) : (s.report r).stream = s.stream := rfl

/-! ### `halt` -/

@[simp] theorem State.halt_regs (s : State) (c : HaltCause) : (s.halt c).regs = s.regs := rfl
@[simp] theorem State.halt_readReg (s : State) (c : HaltCause) (i : RegIndex) :
    (s.halt c).readReg i = s.readReg i := rfl
@[simp] theorem State.halt_mem (s : State) (c : HaltCause) : (s.halt c).mem = s.mem := rfl
@[simp] theorem State.halt_memRead (s : State) (c : HaltCause) (a : Nat) :
    (s.halt c).memRead a = s.memRead a := rfl
@[simp] theorem State.halt_pc (s : State) (c : HaltCause) : (s.halt c).pc = s.pc := rfl
@[simp] theorem State.halt_status (s : State) (c : HaltCause) : (s.halt c).status = .halted := rfl
@[simp] theorem State.halt_haltCause (s : State) (c : HaltCause) : (s.halt c).haltCause = c := rfl
@[simp] theorem State.halt_reports (s : State) (c : HaltCause) : (s.halt c).reports = s.reports := rfl
@[simp] theorem State.halt_stream (s : State) (c : HaltCause) : (s.halt c).stream = s.stream := rfl

/-! ### `raise` -/

@[simp] theorem State.raise_regs (s : State) (e : FatalError) : (s.raise e).regs = s.regs := rfl
@[simp] theorem State.raise_readReg (s : State) (e : FatalError) (i : RegIndex) :
    (s.raise e).readReg i = s.readReg i := rfl
@[simp] theorem State.raise_mem (s : State) (e : FatalError) : (s.raise e).mem = s.mem := rfl
@[simp] theorem State.raise_memRead (s : State) (e : FatalError) (a : Nat) :
    (s.raise e).memRead a = s.memRead a := rfl
@[simp] theorem State.raise_pc (s : State) (e : FatalError) : (s.raise e).pc = s.pc := rfl
@[simp] theorem State.raise_status (s : State) (e : FatalError) : (s.raise e).status = .halted := rfl
@[simp] theorem State.raise_haltCause (s : State) (e : FatalError) : (s.raise e).haltCause = e.cause := rfl
@[simp] theorem State.raise_reports (s : State) (e : FatalError) :
    (s.raise e).reports = s.reports ++ [e.toReport s.pc] := rfl
@[simp] theorem State.raise_stream (s : State) (e : FatalError) : (s.raise e).stream = s.stream := rfl

/-! ### `load` -/

@[simp] theorem State.load_mem (bs : List Byte) : (State.load bs).mem = [] := rfl
@[simp] theorem State.load_pc (bs : List Byte) : (State.load bs).pc = 0 := rfl
@[simp] theorem State.load_status (bs : List Byte) : (State.load bs).status = .running := rfl
@[simp] theorem State.load_haltCause (bs : List Byte) : (State.load bs).haltCause = .none := rfl
@[simp] theorem State.load_reports (bs : List Byte) : (State.load bs).reports = [] := rfl
@[simp] theorem State.load_stream (bs : List Byte) : (State.load bs).stream = bs := rfl

/-- Every register of a loaded state is at its reset value. -/
@[simp] theorem State.load_readReg (bs : List Byte) (i : RegIndex) : (State.load bs).readReg i = 0 := by
  simp [State.load, State.readReg, State.reset]

/-! ### `advance` -/

@[simp] theorem State.advance_regs (s : State) : s.advance.regs = s.regs := by
  unfold State.advance; dsimp only; split <;> rfl
@[simp] theorem State.advance_readReg (s : State) (i : RegIndex) : s.advance.readReg i = s.readReg i := by
  simp [State.readReg]
@[simp] theorem State.advance_mem (s : State) : s.advance.mem = s.mem := by
  unfold State.advance; dsimp only; split <;> rfl
@[simp] theorem State.advance_memRead (s : State) (a : Nat) : s.advance.memRead a = s.memRead a := by
  simp [State.memRead]
@[simp] theorem State.advance_pc (s : State) : s.advance.pc = s.pc + 5 := by
  unfold State.advance; dsimp only; split <;> rfl
@[simp] theorem State.advance_reports (s : State) : s.advance.reports = s.reports := by
  unfold State.advance; dsimp only; split <;> rfl
@[simp] theorem State.advance_stream (s : State) : s.advance.stream = s.stream := by
  unfold State.advance; dsimp only; split <;> rfl
theorem State.advance_status (s : State) :
    s.advance.status = if s.stream.length ≤ s.pc + 5 then .halted else s.status := by
  simp only [State.advance, Config.instrBytes]; split <;> simp_all
theorem State.advance_haltCause (s : State) :
    s.advance.haltCause = if s.stream.length ≤ s.pc + 5 then .endOfStream else s.haltCause := by
  simp only [State.advance, Config.instrBytes]; split <;> simp_all

end Sys2Proof.Machine
end

