-- ==== Sys2Proof/Laws/Operands.lean ====
section
/-! SUPPORT. What each operand form gives, as a number or bit by bit. -/

namespace Sys2Proof.Machine

/-- The immediate is zero-extended: the number does not change. -/
@[simp] theorem immValue_toNat (c : Imm) : (immValue c).toNat = c.toNat := by
  have := c.isLt
  simp only [immValue, BitVec.toNat_setWidth]
  omega

@[simp] theorem State.regOperand_eq (s : State) (b : RegIndex) : s.regOperand b = s.readReg b := rfl

@[simp] theorem State.indirectAddress_eq (s : State) (b : RegIndex) : s.indirectAddress b = (s.readReg b).toNat := rfl

@[simp] theorem absoluteAddress_eq (c : DataAddr) : absoluteAddress c = c := rfl

/-- With 32-bit registers the mask changes nothing (44_not.md R90; 90_conflicts.md C6). -/
theorem complement32_eq_not (v : Word) : complement32 v = ~~~v := by
  rw [complement32, show (0xFFFFFFFF#32 : Word) = BitVec.allOnes 32 from rfl, BitVec.and_allOnes]

end Sys2Proof.Machine
end

