-- ==== Sys2Proof/Laws/PerInstr.lean ====
section
/-! SUPPORT. What holds of every instruction as syntax, one lemma per constructor. -/

namespace Sys2Proof.Laws.EncodesInFiveBytes

/-- The instruction's record is well-formed and its encoding is exactly 5 bytes (30_encoding.md R40, R47). -/
def Statement (i : Sys2Proof.Instr) : Prop :=
  i.wellFormed = true ∧ (Sys2Proof.encode i).length = 5

theorem loadConst (destReg : RegIndex) (value : Imm) : Statement (.loadConst destReg value) :=
  ⟨Instr.wellFormed_toRecord _, rfl⟩

theorem readMem (srcReg destReg : RegIndex) : Statement (.readMem srcReg destReg) :=
  ⟨Instr.wellFormed_toRecord _, rfl⟩

theorem writeMem (srcReg : RegIndex) (destAddr : DataAddr) : Statement (.writeMem srcReg destAddr) :=
  ⟨Instr.wellFormed_toRecord _, rfl⟩

theorem not (srcReg : RegIndex) (destAddr : DataAddr) : Statement (.not srcReg destAddr) :=
  ⟨Instr.wellFormed_toRecord _, rfl⟩

end Sys2Proof.Laws.EncodesInFiveBytes
end

