-- ==== Sys2Proof/Laws/Step.lean ====
section
/-! SUPPORT. What the step can do, said once: the inversion of the fetch and decode lines, of each meaning and of
the step, which the statements' proofs cite instead of unfolding. -/

namespace Sys2Proof.Machine

/-- The bytes fetched number five exactly where five are left. -/
theorem State.fetchBytes_length (s : State) : s.fetchBytes.length = min 5 (s.stream.length - s.pc) := by
  simp [State.fetchBytes]

/-- An input of another length than five is the Decoder's StructuralError, and only that is. -/
theorem decodeInstr_structural_iff (bs : List Byte) : decodeInstr bs = .error .structural ↔ bs.length ≠ 5 := by
  rw [decodeInstr_error_iff]
  constructor
  · intro h h5
    match bs, h5 with
    | [b0, b1, b2, b3, b4], _ =>
      rw [decode_five] at h
      rcases decodeWord_cases (le40 b0 b1 b2 b3 b4) with ⟨-, h'⟩ | ⟨op, -, h'⟩ <;> simp [h'] at h
  · intro h
    unfold decode
    split
    · simp at h
    · rfl

/-- Lines 1 to 3 of the step: which of the four cases a state is in, and what is answered. -/
theorem State.nextAction_cases (s : State) :
    (s.stream.length ≤ s.pc ∧ s.nextAction = .endOfStream) ∨
    (s.pc < s.stream.length ∧ s.stream.length < s.pc + 5 ∧
      s.nextAction = .fatal (.structural (s.stream.length - s.pc))) ∨
    (s.pc + 5 ≤ s.stream.length ∧
      ∃ a, decodeInstr s.fetchBytes = .error (.unknownOpcode a) ∧ s.nextAction = .fatal (.unknownOpcode a)) ∨
    (s.pc + 5 ≤ s.stream.length ∧ ∃ i, decodeInstr s.fetchBytes = .ok i ∧ s.nextAction = .execute i) := by
  by_cases h1 : s.stream.length ≤ s.pc
  · exact .inl ⟨h1, by simp [State.nextAction, h1]⟩
  by_cases h2 : s.stream.length - s.pc < 5
  · exact .inr (.inl ⟨by omega, by omega, by simp [State.nextAction, h1, h2]⟩)
  have h5 : s.fetchBytes.length = 5 := by rw [s.fetchBytes_length]; omega
  cases hd : decodeInstr s.fetchBytes with
  | ok i => exact .inr (.inr (.inr ⟨by omega, i, rfl, by simp [State.nextAction, h1, h2, hd]⟩))
  | error e =>
    cases e with
    | structural => exact absurd h5 ((decodeInstr_structural_iff _).mp hd)
    | unknownOpcode a => exact .inr (.inr (.inl ⟨by omega, a, rfl, by simp [State.nextAction, h1, h2, hd]⟩))

/-- `load_const` writes its register. -/
theorem exec_loadConst (b : RegIndex) (c : Imm) (s : State) :
    exec (.loadConst b c) s = .next (s.writeReg b (immValue c)) := rfl

/-- `read_mem` in range writes its register with the word read. -/
theorem exec_readMem_of_le (b d : RegIndex) (s : State) (h : (s.readReg b).toNat ≤ 8191) :
    exec (.readMem b d) s = .next (s.writeReg d (Memory.lookup s.mem (s.readReg b).toNat)) := by
  simp only [exec, execReadMem, State.indirectAddress, s.memRead_of_le h]

/-- `read_mem` out of range reports and skips the read. -/
theorem exec_readMem_of_gt (b d : RegIndex) (s : State) (h : 8191 < (s.readReg b).toNat) :
    exec (.readMem b d) s = .next (s.report (.boundsError s.pc (s.readReg b))) := by
  simp only [exec, execReadMem, State.indirectAddress, s.memRead_of_gt h]

/-- `write_mem` writes its word. -/
theorem exec_writeMem (b : RegIndex) (c : DataAddr) (s : State) :
    exec (.writeMem b c) s = .next (s.memWrite c (s.readReg b)) := rfl

/-- `not` writes its word. -/
theorem exec_not (b : RegIndex) (c : DataAddr) (s : State) :
    exec (.not b c) s = .next (s.memWrite c (complement32 (s.readReg b))) := rfl

/-- The words a read gives after a `memWrite`. -/
theorem State.memRead_memWrite (s : State) (a : DataAddr) (v : Word) (x : Nat) :
    (s.memWrite a v).memRead x = if x = a.toNat then some v else s.memRead x := by
  have ha : a.toNat < 8192 := a.isLt
  by_cases hx : x ≤ 8191
  · rw [State.memRead_of_le _ hx, State.memRead_of_le _ hx, State.memWrite_mem, Memory.lookup_update]
    split <;> rfl
  · rw [State.memRead_of_gt _ (by omega), State.memRead_of_gt _ (by omega), if_neg (by omega)]

/-- Everything the execute phase can do: one of the four effects, always a next state. -/
theorem exec_cases (i : Instr) (s : State) :
    ∃ t, exec i s = .next t ∧
      ((∃ b c, i = .loadConst b c ∧ t = s.writeReg b (immValue c)) ∨
       (∃ b d, i = .readMem b d ∧ (s.readReg b).toNat ≤ 8191 ∧
          t = s.writeReg d (Memory.lookup s.mem (s.readReg b).toNat)) ∨
       (∃ b d, i = .readMem b d ∧ 8191 < (s.readReg b).toNat ∧
          t = s.report (.boundsError s.pc (s.readReg b))) ∨
       (∃ b c, i = .writeMem b c ∧ t = s.memWrite c (s.readReg b)) ∨
       (∃ b c, i = .not b c ∧ t = s.memWrite c (complement32 (s.readReg b)))) := by
  cases i with
  | loadConst b c => exact ⟨_, rfl, .inl ⟨b, c, rfl, rfl⟩⟩
  | readMem b d =>
    by_cases h : (s.readReg b).toNat ≤ 8191
    · exact ⟨_, exec_readMem_of_le b d s h, .inr (.inl ⟨b, d, rfl, h, rfl⟩)⟩
    · exact ⟨_, exec_readMem_of_gt b d s (by omega), .inr (.inr (.inl ⟨b, d, rfl, by omega, rfl⟩))⟩
  | writeMem b c => exact ⟨_, rfl, .inr (.inr (.inr (.inl ⟨b, c, rfl, rfl⟩)))⟩
  | not b c => exact ⟨_, rfl, .inr (.inr (.inr (.inr ⟨b, c, rfl, rfl⟩)))⟩

/-- A halted Executor has no step. -/
theorem step_halted (s : State) (h : s.status = .halted) : step s = .fault .halted := by
  simp [step, h]

/-- Everything a running Executor's step can do, guards included. -/
theorem step_running (s : State) (h : s.status = .running) :
    (s.stream.length ≤ s.pc ∧ step s = .next (s.halt .endOfStream)) ∨
    (s.pc < s.stream.length ∧ s.stream.length < s.pc + 5 ∧
      step s = .next (s.raise (.structural (s.stream.length - s.pc)))) ∨
    (s.pc + 5 ≤ s.stream.length ∧
      ∃ a, decodeInstr s.fetchBytes = .error (.unknownOpcode a) ∧ step s = .next (s.raise (.unknownOpcode a))) ∨
    (s.pc + 5 ≤ s.stream.length ∧
      ∃ i t, decodeInstr s.fetchBytes = .ok i ∧ exec i s = .next t ∧ step s = .next t.advance) := by
  rcases s.nextAction_cases with ⟨h1, h2⟩ | ⟨h1, h2, h3⟩ | ⟨h1, a, h2, h3⟩ | ⟨h1, i, h2, h3⟩
  · exact .inl ⟨h1, by simp [step, h, h2]⟩
  · exact .inr (.inl ⟨h1, h2, by simp [step, h, h3]⟩)
  · exact .inr (.inr (.inl ⟨h1, a, h2, by simp [step, h, h3]⟩))
  · obtain ⟨t, ht, -⟩ := exec_cases i s
    exact .inr (.inr (.inr ⟨h1, i, t, h2, ht, by simp [step, h, h3, ht, completeStep]⟩))

/-- Everything a step that answers a next state did. -/
theorem step_cases {s u : State} (h : step s = .next u) :
    s.status = .running ∧
    ((s.stream.length ≤ s.pc ∧ u = s.halt .endOfStream) ∨
     (s.pc < s.stream.length ∧ s.stream.length < s.pc + 5 ∧
       u = s.raise (.structural (s.stream.length - s.pc))) ∨
     (s.pc + 5 ≤ s.stream.length ∧
       ∃ a, decodeInstr s.fetchBytes = .error (.unknownOpcode a) ∧ u = s.raise (.unknownOpcode a)) ∨
     (s.pc + 5 ≤ s.stream.length ∧
       ∃ i t, decodeInstr s.fetchBytes = .ok i ∧ exec i s = .next t ∧ u = t.advance)) := by
  cases hs : s.status with
  | halted => rw [step_halted s hs] at h; cases h
  | running =>
    refine ⟨rfl, ?_⟩
    rcases step_running s hs with ⟨h1, h2⟩ | ⟨h1, h2, h3⟩ | ⟨h1, a, h2, h3⟩ | ⟨h1, i, t, h2, h3, h4⟩
    · rw [h2] at h; cases h; exact .inl ⟨h1, rfl⟩
    · rw [h3] at h; cases h; exact .inr (.inl ⟨h1, h2, rfl⟩)
    · rw [h3] at h; cases h; exact .inr (.inr (.inl ⟨h1, a, h2, rfl⟩))
    · rw [h4] at h; cases h; exact .inr (.inr (.inr ⟨h1, i, t, h2, h3, rfl⟩))

/-- The execute phase leaves the pc, the run state and the stream alone. -/
theorem exec_frame {i : Instr} {s t : State} (h : exec i s = .next t) :
    t.pc = s.pc ∧ t.status = s.status ∧ t.haltCause = s.haltCause ∧ t.stream = s.stream := by
  obtain ⟨t', ht, hc⟩ := exec_cases i s
  rw [ht] at h; cases h
  rcases hc with ⟨b, c, -, rfl⟩ | ⟨b, d, -, -, rfl⟩ | ⟨b, d, -, -, rfl⟩ | ⟨b, c, -, rfl⟩ | ⟨b, c, -, rfl⟩ <;>
    exact ⟨rfl, rfl, rfl, rfl⟩

/-- What `withFetchWord` places is what is fetched next. -/
theorem State.withFetchWord_fetchBytes (s : State) (nbits w : Nat) :
    (s.withFetchWord nbits w).fetchBytes = bytes40 (tableWord nbits w) := by
  have hlen : (s.stream.take s.pc ++ List.replicate (s.pc - s.stream.length) (0 : Byte)).length = s.pc := by
    simp; omega
  simp only [State.fetchBytes, State.withFetchWord, State.placeWord, List.append_assoc]
  rw [← List.append_assoc, List.drop_append_of_le_length (by omega), List.drop_of_length_le (by omega)]
  rfl

end Sys2Proof.Machine
end

