-- ==== Sys2Proof/Laws/Run.lean ====
section
/-! SUPPORT. A run one step at a time, and the straight-line execution of a list of instructions. -/

namespace Sys2Proof.Machine

/-- A halted Executor's run is at its end. -/
theorem runFor_of_halted (n : Nat) (s : State) (h : s.status = .halted) : runFor n s = .next s := by
  cases n <;> simp [runFor, h]

/-- A running Executor's run goes on from its step's next state. -/
theorem runFor_succ_of_step {s t : State} (hr : s.status = .running) (h : step s = .next t) (n : Nat) :
    runFor (n + 1) s = runFor n t := by
  simp [runFor, hr, h]

/-- One instruction of a straight-line execution. -/
theorem execAll_cons_of_exec {i : Instr} {s t : State} (h : exec i s = .next t) (rest : List Instr) :
    execAll (i :: rest) s = execAll rest { t with pc := t.pc + 5 } := by
  simp [execAll, h]

/-- A straight-line execution always completes; it moves the pc past every instruction and leaves the run state and
the stream alone. -/
theorem execAll_completes (is : List Instr) (s : State) : ∃ t, execAll is s = .next t ∧
    t.pc = s.pc + 5 * is.length ∧ t.status = s.status ∧ t.haltCause = s.haltCause ∧ t.stream = s.stream := by
  induction is generalizing s with
  | nil => exact ⟨s, rfl, by simp, rfl, rfl, rfl⟩
  | cons i rest ih =>
    obtain ⟨t, ht, -⟩ := exec_cases i s
    obtain ⟨f1, f2, f3, f4⟩ := exec_frame ht
    obtain ⟨u, hu, g1, g2, g3, g4⟩ := ih { t with pc := t.pc + 5 }
    refine ⟨u, by rw [execAll_cons_of_exec ht, hu], ?_, g2.trans f2, g3.trans f3, g4.trans f4⟩
    rw [g1, ← f1, List.length_cons]
    dsimp only
    omega

end Sys2Proof.Machine
end

