-- ==== Sys2Proof/Tests/Slice0.lean ====
section
/-! SUPPORT. Small tests, their expected results from the spec's own vectors (spec/95_test_vectors.md, the id in the
comment), and for every statement with hypotheses a witness that meets them. -/

namespace Sys2Proof.Tests
open Sys2Proof.Machine

/-! ### Well-formedness: a term each check refuses -/

theorem test_wellFormed_accepts : Record.wellFormed { opcode := .loadConst, a := 56, b := 127, c := 33554431 } = true := by
  decide
theorem test_wellFormed_refuses_wrong_code :
    Record.codeOk { opcode := .loadConst, a := 54, b := 0, c := 0 } = false := by decide
theorem test_wellFormed_refuses_b_128 :
    Record.bOk { opcode := .readMem, a := 62, b := 128, c := 0 } = false := by decide
theorem test_wellFormed_refuses_c_past_its_width :
    Record.cOk { opcode := .writeMem, a := 54, b := 0, c := 8192 } = false := by decide
theorem test_wellFormed_is_all_three :
    [Record.wellFormed { opcode := .loadConst, a := 54, b := 0, c := 0 },
     Record.wellFormed { opcode := .readMem, a := 62, b := 128, c := 0 },
     Record.wellFormed { opcode := .writeMem, a := 54, b := 0, c := 8192 }] = [false, false, false] := by decide

/-! ### Decoder: one word per constructor, written out from the spec -/

-- V1
theorem test_decode_load_const : decodeInstr [0xF8, 0x6B, 0x36, 0x00, 0x00] = .ok (.loadConst 47 435) := by decide
-- V2
theorem test_decode_read_mem : decodeInstr [0xFE, 0xBB, 0x0E, 0x00, 0x00] = .ok (.readMem 111 117) := by decide
-- V3
theorem test_decode_write_mem : decodeInstr [0x76, 0x4B, 0x25, 0x00, 0x00] = .ok (.writeMem 45 298) := by decide
-- V4
theorem test_decode_not : decodeInstr [0xFB, 0xA1, 0x6F, 0x00, 0x00] = .ok (.not 7 893) := by decide
-- the picture of F25 in 30 R46, bit 39 first: 00, C = 1 followed by 24 zeros, B = 1000000, A = 111000 (E8)
theorem test_decode_bits_of_E8 :
    decodeTableWord 40 0b0010000000000000000000000001000000111000 = some (.loadConst 64 16777216) := by decide
-- Q1, Q2, Q7
theorem test_decode_unknown :
    [decode [0, 0, 0, 0, 0], decode [0xFF, 0xFF, 0xFF, 0xFF, 0xFF], decode [0x3C, 0, 0, 0, 0]] =
      [.error (.unknownOpcode 0), .error (.unknownOpcode 63), .error (.unknownOpcode 60)] := by decide
-- Q10, Q11, Q12
theorem test_decode_structural :
    [decode [0xF8, 0x6B, 0x36, 0], decode [0xF8, 0x6B, 0x36, 0, 0, 0], decode []] =
      [.error .structural, .error .structural, .error .structural] := by decide
-- Q13, Q16, Q17
theorem test_decode_ignores_high_bits :
    [decodeInstr [0xF8, 0x6B, 0x36, 0x00, 0x40], decodeInstr [0x76, 0x4B, 0x25, 0x04, 0x00],
     decodeInstr [0xFB, 0xFF, 0xFF, 0xFF, 0xFF]] =
      [.ok (.loadConst 47 435), .ok (.writeMem 45 298), .ok (.not 127 8191)] := by decide
-- K4
theorem test_pack_masks : pack { opcode := .writeMem, a := 54, b := 0, c := 8192 + 298 } = 0x0000254036 := by decide
-- E7, E10, E15, E20
theorem test_encode_saturated :
    [encode (.loadConst 127 33554431), encode (.readMem 127 127), encode (.writeMem 127 8191), encode (.not 127 8191)] =
      [[0xF8, 0xFF, 0xFF, 0xFF, 0x3F], [0xFE, 0xFF, 0x0F, 0x00, 0x00], [0xF6, 0xFF, 0xFF, 0x03, 0x00],
       [0xFB, 0xFF, 0xFF, 0x03, 0x00]] := by decide

/-! ### Encoder -/

-- V1
theorem test_encodeCommand_V1 :
    encodeCommand { opcode := some "load_const", destReg := some 47, value := some 435 } =
      .ok [0xF8, 0x6B, 0x36, 0x00, 0x00] := by decide
-- X2, X3
theorem test_encodeCommand_unknown_name :
    encodeCommand { opcode := some "LOAD_CONST", destReg := some 1, value := some 1 } =
      .error (.unknownOpcode (some "LOAD_CONST")) ∧
    encodeCommand {} = .error (.unknownOpcode none) := by decide
-- X5
theorem test_encodeCommand_missing :
    encodeCommand { opcode := some "read_mem", srcReg := some 1, destAddr := some 2 } =
      .error (.missingField .readMem [.srcReg, .destReg]) := by decide
-- X9, X12
theorem test_encodeCommand_range :
    encodeCommand { opcode := some "load_const", destReg := some 0, value := some (-1) } =
      .error (.outOfRange .value (-1) 0 33554431) ∧
    encodeCommand { opcode := some "not", srcReg := some (-1), destAddr := some 8192 } =
      .error (.outOfRange .srcReg (-1) 0 127) := by decide
-- X15, X17
theorem test_encodeAll :
    encodeAll [(Instr.loadConst 47 435).toCommand, (Instr.readMem 111 117).toCommand,
      { opcode := some "write_mem", srcReg := some 0, destAddr := some 8192 }, (Instr.not 7 893).toCommand] =
      .error (2, .outOfRange .destAddr 8192 0 8191) ∧
    encodeAll [] = .ok [] := by decide

/-! ### One step -/

/-- A state at reset with a stream, some registers and some words. -/
def testState (stream : List Byte) (regs : List (RegIndex × Word)) (words : List (DataAddr × Word)) : State :=
  words.foldl (fun s w => s.memWrite w.1 w.2) (regs.foldl (fun s r => s.writeReg r.1 r.2) (State.load stream))

/-- What one step leaves, or the state before where there is none. -/
def stepped (s : State) : State :=
  match step s with
  | .next t    => t
  | .fault _   => s
  | .refused _ => s

/-- The step answers a next state. -/
def answersNext (s : State) : Bool :=
  match step s with
  | .next _    => true
  | .fault _   => false
  | .refused _ => false

-- L2, with the stream going on: the run stays running
theorem test_load_const_replaces :
    let t := stepped (testState (encode (.loadConst 1 0) ++ [0]) [(1, 0xFFFFFFFF)] [])
    t.readReg 1 = 0 ∧ t.pc = 5 ∧ t.status = .running := by decide
-- L4, S4: register 0 is ordinary, and the stream ends there
theorem test_load_const_register_0 :
    let t := stepped (testState (encode (.loadConst 0 7)) [] [])
    t.readReg 0 = 7 ∧ t.pc = 5 ∧ t.haltCause = .endOfStream := by decide
-- M6
theorem test_read_mem_same_register :
    (stepped (testState (encode (.readMem 5 5)) [(5, 7)] [(7, 0x1234)])).readReg 5 = 0x1234 := by decide
-- M4, 42 R87
theorem test_read_mem_out_of_range :
    let t := stepped (testState (encode (.readMem 0 5) ++ [0]) [(0, 8192), (5, 99)] [])
    t.readReg 5 = 99 ∧ t.reports = [.boundsError 0 8192] ∧ t.pc = 5 ∧ t.status = .running := by decide
-- W4
theorem test_write_mem_replaces :
    (stepped (testState (encode (.writeMem 3 1)) [(3, 0xFFFFFFFF)] [(1, 5)])).mem = [(1, 0xFFFFFFFF)] := by decide
-- W2: a stored 0 is the reset content, so no cell is listed
theorem test_write_mem_zero :
    (stepped (testState (encode (.writeMem 9 0)) [] [(0, 5), (8191, 1)])).mem = [(8191, 1)] := by decide
-- T1
theorem test_not_of_5 : (stepped (testState (encode (.not 1 10)) [(1, 5)] [])).memRead 10 = some 0xFFFFFFFA := by decide
-- T6
theorem test_not_last_word :
    let t := stepped (testState (encode (.not 6 8191)) [(6, 0x12345678)] [])
    t.memRead 8191 = some 0xEDCBA987 ∧ t.readReg 6 = 0x12345678 := by decide
-- S1
theorem test_step_empty_stream :
    let t := stepped State.reset
    t.status = .halted ∧ t.haltCause = .endOfStream ∧ t.pc = 0 ∧ t.reports = [] := by decide
-- S2
theorem test_step_partial :
    let t := stepped (State.load [0x38, 0, 0, 0])
    t.haltCause = .structural ∧ t.pc = 0 ∧ t.reports = [.structuralError 0 4] := by decide
-- S3
theorem test_step_unknown :
    let t := stepped (State.load [0xFF, 0xFF, 0xFF, 0xFF, 0xFF])
    t.haltCause = .unknownOpcode ∧ t.pc = 0 ∧ t.reports = [.unknownOpcodeError 0 63] := by decide
-- O1, O6
theorem test_export :
    (testState [] [] [(10, 0xFFFFFFFA)]).exportRange 9 11 =
      .ok { first := 9, last := 11, entries :=
        [{ address := 9, value := 0, hex := 0 }, { address := 10, value := 4294967290, hex := 4294967290 },
         { address := 11, value := 0, hex := 0 }] } ∧
    State.reset.exportRange (-1) 5 = .error (.range (-1) 5) := by decide
-- the placed word runs as the first instruction after reset (V1)
theorem test_withFetchWord_runs :
    (stepped (State.reset.withFetchWord 40 0x0000366BF8)).readReg 47 = 435 := by decide

/-! ### Witnesses: hypotheses that some state and operands meet, clause by clause -/

theorem loaded_inv : (State.load [0x78, 0xA0, 0, 0, 0]).Inv :=
  ⟨by decide, by decide, by decide, by decide, by decide, by decide, by decide⟩

theorem witness_ResetStateHoldsTheSpecValues :
    (∃ s : State, s = State.reset) ∧ (∃ s : State, s.stream = [0x78] ∧ ∃ stream : List Byte, s = State.load stream) :=
  ⟨⟨_, rfl⟩, ⟨State.load [0x78], rfl, _, rfl⟩⟩
theorem witness_StepKeepsTheInvariant : ∃ s t : State, s.Inv ∧ step s = .next t :=
  ⟨_, _, loaded_inv, rfl⟩
theorem witness_EveryReachableStateMeetsTheInvariant :
    ∃ s : State, Reachable [0x78, 0xA0, 0, 0, 0] s ∧ s.pc = 5 :=
  ⟨_, .step .load rfl, by decide⟩
theorem witness_CanonicalMemoriesThatReadAlikeAreEqual :
    ∃ m n : Memory, Memory.wf m = true ∧ Memory.wf n = true ∧ m ≠ [] ∧
      ∀ a : Nat, a ≤ 8191 → Memory.lookup m a = Memory.lookup n a :=
  ⟨[(10, 5)], Memory.update [] 10 5, by decide, by decide, by decide, fun _ _ => rfl⟩
theorem witness_DecodeAfterPackGivesTheRecordBack :
    (∃ r : Record, r.wellFormed = true ∧ r.b = 127 ∧ r.c = 8191) ∧
    (∃ w r, decode (bytes40 w) = .ok r ∧ canonical w = true) ∧
    (∃ w r, decode (bytes40 w) = .ok r ∧ canonical w = false) :=
  ⟨⟨{ opcode := .not, a := 59, b := 127, c := 8191 }, by decide⟩, ⟨0x3FFFFFFFF8, _, rfl, by decide⟩,
   ⟨0x7FFFFFFFF8, _, rfl, by decide⟩⟩
theorem witness_DecodeAfterEncodeGivesTheInstructionBack : ∃ i : Instr, i.wellFormed = true :=
  ⟨.readMem 127 127, by decide⟩
theorem witness_DecoderFailsInExactlyTwoWays :
    ∃ (bs : List Byte) (w : InstrWord), bs = bytes40 w ∧ w.toNat % 64 ∈ [54, 56, 59, 62] :=
  ⟨_, 0x3FFFFE03B, rfl, by decide⟩
theorem witness_DecodedRecordsAreWellFormed : ∃ bs r, decode bs = .ok r :=
  ⟨[0xFB, 0xFF, 0xFF, 0xFF, 0xFF], _, rfl⟩
theorem witness_EncodedWordsHaveZeroHighBits : ∃ cmd bs, encodeCommand cmd = .ok bs :=
  ⟨(Instr.loadConst 127 33554431).toCommand, [0xF8, 0xFF, 0xFF, 0xFF, 0x3F], by decide⟩
theorem witness_EncodeReportsTheFirstFailedCheck :
    (∃ cmd : Command, cmd.opcode ∉ [some "load_const", some "read_mem", some "write_mem", some "not"]) ∧
    (∃ (cmd : Command) (op : Opcode), cmd.opcode = some op.row.name ∧
      (cmd.operand op.operands.1 = none ∨ cmd.operand op.operands.2 = none)) ∧
    (∃ (cmd : Command) (op : Opcode) (b c : Int), cmd.opcode = some op.row.name ∧
      cmd.operand op.operands.1 = some b ∧ cmd.operand op.operands.2 = some c ∧ (b < 0 ∨ op.operands.1.high < b)) ∧
    (∃ (cmd : Command) (op : Opcode) (b c : Int), cmd.opcode = some op.row.name ∧
      cmd.operand op.operands.1 = some b ∧ cmd.operand op.operands.2 = some c ∧ 0 ≤ b ∧ b ≤ op.operands.1.high ∧
      (c < 0 ∨ op.operands.2.high < c)) :=
  ⟨⟨{ opcode := some "halt" }, by decide⟩,
   ⟨{ opcode := some "not", destAddr := some 3 }, .not, by decide⟩,
   ⟨{ opcode := some "load_const", destReg := some 128, value := some 0 }, .loadConst, 128, 0, by decide⟩,
   ⟨{ opcode := some "write_mem", srcReg := some 127, destAddr := some 8192 }, .writeMem, 127, 8192, by decide⟩⟩
theorem witness_MaximaAreExactAndOnePastIsRejected :
    ∃ cmd at_c past_b past_c : Command, ∃ op m,
      (op, m) ∈ [(Opcode.loadConst, 33554431), (.readMem, 127), (.writeMem, 8191), (.not, 8191)] ∧
      cmd.opcode = some op.row.name ∧ cmd.operand op.operands.1 = some 127 ∧ cmd.operand op.operands.2 = some 0 ∧
      at_c.opcode = some op.row.name ∧ at_c.operand op.operands.1 = some 0 ∧
        at_c.operand op.operands.2 = some ((m : Nat) : Int) ∧
      past_b.opcode = some op.row.name ∧ past_b.operand op.operands.1 = some 128 ∧
        past_b.operand op.operands.2 = some 0 ∧
      past_c.opcode = some op.row.name ∧ past_c.operand op.operands.1 = some 0 ∧
        past_c.operand op.operands.2 = some ((m : Int) + 1) :=
  ⟨{ opcode := some "read_mem", srcReg := some 127, destReg := some 0 },
   { opcode := some "read_mem", srcReg := some 0, destReg := some 127 },
   { opcode := some "read_mem", srcReg := some 128, destReg := some 0 },
   { opcode := some "read_mem", srcReg := some 0, destReg := some 128 }, .readMem, 127, by decide⟩
theorem witness_EncodeAllIsAllOrNothing :
    (∃ (cmds : List Command) (bss : List (List Byte)), cmds ≠ [] ∧ cmds.map encodeCommand = bss.map Except.ok) ∧
    (∃ (before : List Command) (cmd : Command) (e : ValidationError), before ≠ [] ∧
      (∀ c ∈ before, ∃ bs, encodeCommand c = .ok bs) ∧ encodeCommand cmd = .error e) :=
  ⟨⟨[(Instr.not 7 893).toCommand], [[0xFB, 0xA1, 0x6F, 0x00, 0x00]], by decide, by decide⟩,
   ⟨[(Instr.not 7 893).toCommand], {}, .unknownOpcode none, by decide,
    fun c hc => ⟨[0xFB, 0xA1, 0x6F, 0x00, 0x00], by rw [List.mem_singleton.mp hc]; decide⟩, by decide⟩⟩
theorem witness_ReadMemInRangeWritesOnlyItsRegister :
    ∃ (b : RegIndex) (s : State), (s.readReg b).toNat ≤ 8191 ∧ (s.readReg b).toNat = 8191 :=
  ⟨0, testState [] [(0, 8191)] [], by decide⟩
theorem witness_ReadMemOutOfRangeOnlyReports :
    ∃ (b : RegIndex) (s : State), 8191 < (s.readReg b).toNat ∧ (s.readReg b).toNat = 8192 :=
  ⟨0, testState [] [(0, 8192)] [], by decide⟩
theorem witness_StepRunsTheDecodedInstruction :
    (∃ (s : State) (i : Instr), s.status = .running ∧ decodeInstr s.fetchBytes = .ok i ∧
      s.stream.length ≤ s.pc + 5) ∧
    (∃ (s : State) (i : Instr), s.status = .running ∧ decodeInstr s.fetchBytes = .ok i ∧
      s.pc + 5 < s.stream.length) :=
  ⟨⟨State.load [0x7B, 0x40, 1, 0, 0], .not 1 10, by decide⟩,
   ⟨State.load [0x7B, 0x40, 1, 0, 0, 0], .not 1 10, by decide⟩⟩
theorem witness_HaltedExecutorHasNoStep : ∃ s : State, s.status = .halted :=
  ⟨State.reset.halt .endOfStream, by decide⟩
theorem witness_StepOnLoadConstWord :
    ∃ (b : BitVec 7) (c : BitVec 25) (s : State), s.status = .running ∧
      s.fetchBytes = bytes40 (formatF25 0 c b 56) ∧ s.pc + 5 < s.stream.length :=
  ⟨127, 33554431, State.load [0xF8, 0xFF, 0xFF, 0xFF, 0x3F, 0], by decide⟩
theorem witness_StepOnReadMemWord :
    (∃ (b d : BitVec 7) (s : State), s.status = .running ∧ s.fetchBytes = bytes40 (formatF7 0 d b 62) ∧
      (s.readReg b).toNat = 8191) ∧
    (∃ (b d : BitVec 7) (s : State), s.status = .running ∧ s.fetchBytes = bytes40 (formatF7 0 d b 62) ∧
      (s.readReg b).toNat = 8192) :=
  ⟨⟨127, 0, testState [0xFE, 0x1F, 0, 0, 0] [(127, 8191)] [], by decide⟩,
   ⟨127, 0, testState [0xFE, 0x1F, 0, 0, 0] [(127, 8192)] [], by decide⟩⟩
theorem witness_StepOnWriteMemWord :
    ∃ (b : BitVec 7) (c : BitVec 13) (s : State), s.status = .running ∧
      s.fetchBytes = bytes40 (formatF13 0 c b 54) ∧ s.pc + 5 < s.stream.length :=
  ⟨127, 8191, State.load [0xF6, 0xFF, 0xFF, 0x03, 0x00, 0], by decide⟩
theorem witness_StepOnNotWord :
    ∃ (b : BitVec 7) (c : BitVec 13) (s : State), s.status = .running ∧
      s.fetchBytes = bytes40 (formatF13 0 c b 59) ∧ s.pc + 5 < s.stream.length :=
  ⟨0, 8191, State.load [0x3B, 0xE0, 0xFF, 0x03, 0x00, 0], by decide⟩
theorem witness_UnknownOpcodeHaltsAndOnlyReports :
    ∃ (s : State) (w : InstrWord), s.status = .running ∧ s.fetchBytes = bytes40 w ∧
      w.toNat % 64 ∉ [54, 56, 59, 62] :=
  ⟨State.load [0x35, 0, 0, 0, 0], 0x35, by decide⟩
theorem witness_PartialFetchHaltsAndOnlyReports :
    (∃ s : State, s.status = .running ∧ s.pc < s.stream.length ∧ s.stream.length < s.pc + 5 ∧ s.Inv) ∧
    (∃ s : State, s.status = .running ∧ s.pc < s.stream.length ∧ s.stream.length = s.pc + 4) :=
  ⟨⟨State.load [0x38], by decide, by decide, by decide, by decide, by decide, by decide, by decide, by decide,
      by decide, by decide⟩,
   ⟨State.load [0x38, 0, 0, 0], by decide⟩⟩
theorem witness_OnlyThreeEventsHaltTheRun :
    (∃ s t : State, step s = .next t ∧ t.status = .running) ∧
    (∃ s t : State, step s = .next t ∧ t.status = .halted ∧ s.Inv ∧ t.haltCause = .endOfStream) ∧
    (∃ s t : State, step s = .next t ∧ t.status = .halted ∧ t.haltCause = .structural) ∧
    (∃ s t : State, step s = .next t ∧ t.status = .halted ∧ t.haltCause = .unknownOpcode) :=
  ⟨⟨State.load [0x78, 0xA0, 0, 0, 0, 0], _, rfl, by decide⟩,
   ⟨State.load [0x78, 0xA0, 0, 0, 0], _, rfl, by decide, loaded_inv, by decide⟩,
   ⟨State.load [0x78], _, rfl, by decide, by decide⟩,
   ⟨State.load [0, 0, 0, 0, 0], _, rfl, by decide, by decide⟩⟩
theorem witness_PcMovesByFiveOrTheRunHalts : ∃ s t : State, step s = .next t :=
  ⟨State.load [0x78, 0xA0, 0, 0, 0], _, rfl⟩
theorem witness_OnlyLoadConstAndReadMemChangeARegister :
    ∃ (s t : State) (r : RegIndex), step s = .next t ∧ t.readReg r ≠ s.readReg r :=
  ⟨State.load [0x78, 0xA0, 0, 0, 0], _, 1, rfl, by decide⟩
theorem witness_OnlyWriteMemAndNotChangeAWord :
    ∃ (s t : State) (a : Nat), step s = .next t ∧ t.memRead a ≠ s.memRead a :=
  ⟨State.load [0x7B, 0x40, 1, 0, 0], _, 10, rfl, by decide⟩
theorem witness_AStepAppendsAtMostOneReport : ∃ s t : State, step s = .next t ∧ t.reports ≠ s.reports :=
  ⟨testState [0xFE, 0x1F, 0, 0, 0] [(127, 8192)] [], _, rfl, by decide⟩
theorem witness_StepSeesOnlyTheBytesAtThePc :
    ∃ (s t : State) (other : List Byte), other.length = s.stream.length ∧ other ≠ s.stream ∧
      (other.drop s.pc).take 5 = (s.stream.drop s.pc).take 5 ∧ step s = .next t :=
  ⟨State.load [0x78, 0xA0, 0, 0, 0, 1], _, [0x78, 0xA0, 0, 0, 0, 2], by decide, by decide, by decide, rfl⟩
theorem witness_MemoryHoldsTheLatestWrite :
    ∃ (rest : List Instr) (a : DataAddr), rest ≠ [] ∧ rest.all (fun i => !writesMem a.toNat i) = true :=
  ⟨[.writeMem 1 9, .not 1 11, .readMem 1 2], 10, by decide⟩
theorem witness_RegisterHoldsTheLatestLoad :
    (∃ (rest : List Instr) (r : RegIndex), rest ≠ [] ∧ rest.all (fun i => !writesReg r i) = true) ∧
    (∃ (s : State) (b : RegIndex), (s.readReg b).toNat ≤ 8191 ∧ (s.readReg b).toNat = 8191) :=
  ⟨⟨[.loadConst 2 9, .readMem 1 3, .not 1 11], 1, by decide⟩, ⟨testState [] [(0, 8191)] [], 0, by decide⟩⟩
theorem witness_EveryRunHaltsWithinTheBound :
    ∃ (s : State) (n : Nat), s.status = .running ∧ (s.stream.length - s.pc) / 5 + 1 ≤ n :=
  ⟨State.load [0x78, 0xA0, 0, 0, 0], 2, by decide⟩
theorem witness_WellFormedStreamTakesOneStepEach :
    ∃ (is : List Instr) (k : Nat), k < is.length ∧ 0 < is.length :=
  ⟨[.loadConst 1 5, .not 1 10], 1, by decide⟩
theorem witness_FirstUnknownOpcodeEndsTheRun : ∃ w : InstrWord, w.toNat % 64 ∉ [54, 56, 59, 62] :=
  ⟨0xFFFFFFFFFF, by decide⟩
theorem witness_PartialTailEndsTheRunAfterTheWholeInstructions :
    (∃ tail : List Byte, 1 ≤ tail.length ∧ tail.length ≤ 4 ∧ tail.length = 1) ∧
    (∃ tail : List Byte, 1 ≤ tail.length ∧ tail.length ≤ 4 ∧ tail.length = 4) :=
  ⟨⟨[0x7B], by decide⟩, ⟨[0x7B, 0x40, 1, 0], by decide⟩⟩
theorem witness_EncodedStreamsNeverFail :
    ∃ (cmds : List Command) (bs : List Byte), cmds ≠ [] ∧ encodeAll cmds = .ok bs :=
  ⟨[(Instr.not 7 893).toCommand], [0xFB, 0xA1, 0x6F, 0x00, 0x00], by decide, by decide⟩
theorem witness_ExportListsEveryWordOfTheRange :
    ∃ first last k : Nat, first ≤ last ∧ last ≤ 8191 ∧ first + k ≤ last ∧ last = 8191 :=
  ⟨8190, 8191, 1, by decide⟩

end Sys2Proof.Tests
end

/-! The encoding family: words and their five bytes (spec/30_encoding.md R48), the packed word (R49) and the
Decoder's two failures (R57). -/

namespace Sys2Proof

/-! ### Fields and bytes of a word -/

/-- A field as quotient and remainder: the form arithmetic works on. -/
theorem fieldNat_eq_div_mod (w : InstrWord) (lo len : Nat) :
    fieldNat w lo len = w.toNat / 2 ^ lo % 2 ^ len := by
  rw [fieldNat, Nat.shiftRight_eq_div_pow]

theorem byteOf_toNat (w : InstrWord) (k : Nat) : (byteOf w k).toNat = w.toNat / 2 ^ (8 * k) % 2 ^ 8 := by
  rw [byteOf, fieldNat_eq_div_mod, BitVec.toNat_ofNat, Nat.mod_mod]

/-- The model's byte and the library's bit slice are the same eight bits. -/
theorem byteOf_eq_extractLsb' (w : InstrWord) (k : Nat) : byteOf w k = w.extractLsb' (8 * k) 8 := by
  apply BitVec.eq_of_toNat_eq
  rw [byteOf_toNat, BitVec.extractLsb'_toNat, Nat.shiftRight_eq_div_pow]

/-- Five bytes never carry past bit 39, so the weighted sum is the word's value. -/
theorem le40_toNat (b0 b1 b2 b3 b4 : Byte) :
    (le40 b0 b1 b2 b3 b4).toNat =
      b0.toNat + 2 ^ 8 * b1.toNat + 2 ^ 16 * b2.toNat + 2 ^ 24 * b3.toNat + 2 ^ 32 * b4.toNat := by
  rw [le40, BitVec.toNat_ofNat, Nat.mod_eq_of_lt]
  omega

@[simp] theorem bytes40_le40 (b0 b1 b2 b3 b4 : Byte) : bytes40 (le40 b0 b1 b2 b3 b4) = [b0, b1, b2, b3, b4] := by
  have hsum := le40_toNat b0 b1 b2 b3 b4
  simp only [bytes40, List.cons.injEq, and_true]
  refine ⟨?_, ?_, ?_, ?_, ?_⟩ <;> apply BitVec.eq_of_toNat_eq <;> rw [byteOf_toNat] <;> omega

@[simp] theorem le40_byteOf (w : InstrWord) :
    le40 (byteOf w 0) (byteOf w 1) (byteOf w 2) (byteOf w 3) (byteOf w 4) = w := by
  apply BitVec.eq_of_toNat_eq
  simp only [le40_toNat, byteOf_toNat]
  omega

/-- Settles O8: each direction of R48 is a lemma above. -/
theorem wordsAndFiveBytesAreInverse : Obligations.WordsAndFiveBytesAreInverse := by
  refine ⟨fun w => ?_, le40_toNat, bytes40_le40, le40_byteOf⟩
  simp only [bytes40, byteOf_eq_extractLsb', Nat.reduceMul]

/-- The inputs of the right length are the bytes of the words. -/
theorem length_eq_five_iff_bytes40 (bs : List Byte) : bs.length = 5 ↔ ∃ w, bs = bytes40 w := by
  constructor
  · intro h5
    match bs, h5 with
    | [b0, b1, b2, b3, b4], _ => exact ⟨le40 b0 b1 b2 b3 b4, (bytes40_le40 ..).symm⟩
  · rintro ⟨w, rfl⟩
    exact bytes40_length w

/-! ### The packed word -/

/-- `load_const` has the widest field C. -/
theorem Opcode.cWidth_le (op : Opcode) : op.cWidth ≤ 25 := by
  cases op <;> decide

/-- The three masked fields lie side by side below bit 38, so none carries into the next or out of the word. -/
theorem pack_toNat (r : Record) :
    (pack r).toNat = r.opcode.code.toNat + 2 ^ 6 * (r.b % 2 ^ 7) + 2 ^ 13 * (r.c % 2 ^ r.opcode.cWidth) := by
  have hcode := r.opcode.code.isLt
  have hb : r.b % 2 ^ 7 < 2 ^ 7 := Nat.mod_lt _ (by decide)
  have hc : r.c % 2 ^ r.opcode.cWidth < 2 ^ 25 := calc
    r.c % 2 ^ r.opcode.cWidth < 2 ^ r.opcode.cWidth := Nat.mod_lt _ (Nat.two_pow_pos _)
    _ ≤ 2 ^ 25 := Nat.pow_le_pow_right (by decide) r.opcode.cWidth_le
  rw [pack, BitVec.toNat_ofNat, Nat.mod_eq_of_lt]
  omega

/-- Settles O15, by `pack_toNat` and the table's code and width of each opcode. -/
theorem packMasksEachOperandToItsField : Obligations.PackMasksEachOperandToItsField := by
  intro r
  rw [pack_toNat]
  obtain ⟨opcode, a, b, c⟩ := r
  cases opcode <;> rfl

/-! ### The Decoder's failures -/

/-- The Decoder on the bytes of a word is the Decoder on the word. -/
@[simp] theorem decode_bytes40 (w : InstrWord) : decode (bytes40 w) = decodeWord w := by
  rw [bytes40, decode_five, le40_byteOf]

theorem decode_structural_iff (bs : List Byte) : decode bs = .error .structural ↔ bs.length ≠ 5 :=
  (decodeInstr_error_iff bs .structural).symm.trans (Machine.decodeInstr_structural_iff bs)

/-- Field A as the Decoder reads it: the low six bits. -/
theorem fieldA_toNat (w : InstrWord) : (BitVec.ofNat 6 (fieldNat w 0 6)).toNat = w.toNat % 64 := by
  simp [fieldNat_eq_div_mod]

/-- The codes outside the table (30_encoding.md R45, R61). -/
theorem Opcode.ofCode_eq_none_iff (a : OpcodeCode) : Opcode.ofCode a = none ↔ a.toNat ∉ [54, 56, 59, 62] := by
  revert a
  decide

theorem decodeWord_unknownOpcode_iff (w : InstrWord) (a : OpcodeCode) :
    decodeWord w = .error (.unknownOpcode a) ↔ a.toNat = w.toNat % 64 ∧ a.toNat ∉ [54, 56, 59, 62] := by
  rw [← fieldA_toNat, ← Opcode.ofCode_eq_none_iff, ← BitVec.toNat_eq]
  rcases decodeWord_cases w with ⟨hnone, hw⟩ | ⟨op, hop, hw⟩
  · rw [hw, Except.error.injEq, DecodeError.unknownOpcode.injEq]
    exact ⟨fun h => ⟨h.symm, h ▸ hnone⟩, fun h => h.1.symm⟩
  · have hne : ¬ (a = BitVec.ofNat 6 (fieldNat w 0 6) ∧ Opcode.ofCode a = none) := by
      rintro ⟨rfl, hnone⟩
      simp [hop] at hnone
    simp [hw, hne]

/-- No value of B or C makes a decode fail. -/
theorem decodeWord_ok_of_known (w : InstrWord) (h : w.toNat % 64 ∈ [54, 56, 59, 62]) :
    ∃ r, decodeWord w = .ok r := by
  rcases decodeWord_cases w with ⟨hnone, -⟩ | ⟨op, -, hw⟩
  · rw [Opcode.ofCode_eq_none_iff, fieldA_toNat] at hnone
    exact absurd h hnone
  · exact ⟨_, hw⟩

/-- An unknown opcode is met on five bytes only, those of a word whose field A it is. -/
theorem decode_unknownOpcode_iff (bs : List Byte) (a : OpcodeCode) :
    decode bs = .error (.unknownOpcode a) ↔
      ∃ w : InstrWord, bs = bytes40 w ∧ a.toNat = w.toNat % 64 ∧ a.toNat ∉ [54, 56, 59, 62] := by
  constructor
  · intro h
    have h5 : bs.length = 5 := by
      by_contra hlen
      simp [(decode_structural_iff bs).mpr hlen] at h
    obtain ⟨w, rfl⟩ := (length_eq_five_iff_bytes40 bs).mp h5
    rw [decode_bytes40] at h
    exact ⟨w, rfl, (decodeWord_unknownOpcode_iff w a).mp h⟩
  · rintro ⟨w, rfl, hA⟩
    rw [decode_bytes40]
    exact (decodeWord_unknownOpcode_iff w a).mpr hA

/-- Settles O12: the two failures are the two `iff` lemmas above, and a known code leaves no other. -/
theorem decoderFailsInExactlyTwoWays : Obligations.DecoderFailsInExactlyTwoWays := by
  intro bs
  refine ⟨decode_structural_iff bs, decode_unknownOpcode_iff bs, ?_⟩
  rintro w rfl hknown
  rw [decode_bytes40]
  exact decodeWord_ok_of_known w hknown

end Sys2Proof

/-! The load_const family: the word of `load_const B, C` read back by the Decoder (spec/30_encoding.md R46, R56), and
the step on it (spec/41_load_const.md R85). -/

namespace Sys2Proof

/-! ### The word of F25 -/

/-- Concatenation is place value: the right operand's bits stand below the left operand's. -/
theorem append_toNat {n m : Nat} (x : BitVec n) (y : BitVec m) : (x ++ y).toNat = 2 ^ m * x.toNat + y.toNat := by
  rw [BitVec.toNat_append, ← Nat.shiftLeft_add_eq_or_of_lt y.isLt, Nat.shiftLeft_eq, Nat.mul_comm]

theorem formatF25_toNat (hi : BitVec 2) (c : BitVec 25) (b : BitVec 7) (a : BitVec 6) :
    (formatF25 hi c b a).toNat = 2 ^ 38 * hi.toNat + 2 ^ 13 * c.toNat + 2 ^ 6 * b.toNat + a.toNat := by
  simp only [formatF25, append_toNat]
  omega

/-- The three fields of an F25 word, each read from its own bits (30_encoding.md R46). -/
theorem fieldNat_formatF25 (hi : BitVec 2) (c : BitVec 25) (b : BitVec 7) (a : BitVec 6) :
    fieldNat (formatF25 hi c b a) 0 6 = a.toNat ∧ fieldNat (formatF25 hi c b a) 6 7 = b.toNat ∧
      fieldNat (formatF25 hi c b a) 13 25 = c.toNat := by
  simp only [fieldNat_eq_div_mod, formatF25_toNat]
  omega

/-! ### The Decoder on a word of a known opcode -/

/-- A word whose field A is an opcode's code decodes to that opcode and the fields B and C of its format. -/
theorem decodeWord_of_fieldA {w : InstrWord} {op : Opcode} (hA : fieldNat w 0 6 = op.code.toNat) :
    decodeWord w = .ok { opcode := op, a := op.code.toNat, b := fieldNat w 6 7, c := fieldNat w 13 op.cWidth } := by
  have hcode : Opcode.ofCode (BitVec.ofNat 6 (fieldNat w 0 6)) = some op := by
    rw [hA, BitVec.ofNat_toNat, BitVec.setWidth_eq, Opcode.ofCode_code]
  rcases decodeWord_cases w with ⟨hnone, -⟩ | ⟨op', hop', hw⟩
  · cases hcode.symm.trans hnone
  · cases hcode.symm.trans hop'
    exact hw

/-- A word that holds an instruction's three fields decodes to it, whatever stands above field C (30_encoding.md
R58). -/
theorem decodeInstr_of_fields {w : InstrWord} {i : Instr} (hA : fieldNat w 0 6 = i.opcode.code.toNat)
    (hB : fieldNat w 6 7 = i.fieldB) (hC : fieldNat w 13 i.opcode.cWidth = i.fieldC) :
    decodeInstr (bytes40 w) = .ok i := by
  rw [decodeInstr_ok_iff, decode_bytes40, decodeWord_of_fieldA hA, hB, hC]
  exact ⟨i.toRecord, rfl, i.toInstr_toRecord⟩

theorem decodeInstr_formatF25_loadConst (hi : BitVec 2) (c : BitVec 25) (b : BitVec 7) :
    decodeInstr (bytes40 (formatF25 hi c b 56)) = .ok (.loadConst b c) := by
  obtain ⟨hA, hB, hC⟩ := fieldNat_formatF25 hi c b 56
  exact decodeInstr_of_fields hA hB hC

end Sys2Proof

namespace Sys2Proof.Machine

/-! ### The step on decodable bytes -/

/-- Where the bytes at the pc decode, the step is the execute phase and the advance (40 R71, lines 4 to 6). -/
theorem step_of_decodeInstr_ok {s t : State} {i : Instr} (hrun : s.status = .running)
    (hdec : decodeInstr s.fetchBytes = .ok i) (hexec : exec i s = .next t) : step s = .next t.advance := by
  have h5 : s.fetchBytes.length = 5 := by
    by_contra hne
    cases hdec.symm.trans ((decodeInstr_structural_iff _).mpr hne)
  rw [s.fetchBytes_length] at h5
  rcases step_running s hrun with ⟨hend, -⟩ | ⟨-, hpart, -⟩ | ⟨-, a, herr, -⟩ | ⟨-, j, u, hj, hu, hstep⟩
  · omega
  · omega
  · cases hdec.symm.trans herr
  · cases hdec.symm.trans hj
    cases hexec.symm.trans hu
    exact hstep

/-- The advance halts a running Executor only where the stream ends. -/
theorem State.advance_status_of_lt {s : State} (hrun : s.status = .running) (hlt : s.pc + 5 < s.stream.length) :
    s.advance.status = .running := by
  rw [s.advance_status, if_neg (Nat.not_le.mpr hlt), hrun]

/-- Settles O27: the word decodes to `load_const B, C`, so the step is the register write and the advance, and the
rules of those two operations give each clause. -/
theorem stepOnLoadConstWord : Obligations.StepOnLoadConstWord := by
  intro b c s hrun hbytes
  have hdec : decodeInstr s.fetchBytes = .ok (.loadConst b c) := hbytes ▸ decodeInstr_formatF25_loadConst 0 c b
  refine ⟨_, step_of_decodeInstr_ok hrun hdec (exec_loadConst b c s), ?value, ?otherRegs, ?words, ?pc, ?reports,
    ?stream, ?running⟩
  case value => simp
  case otherRegs =>
    intro r hr
    rw [State.advance_readReg, State.readReg_writeReg_ne s _ hr]
  case words => simp
  case pc => simp
  case reports => simp
  case stream => simp
  case running => exact State.advance_status_of_lt (s := s.writeReg b (immValue c)) hrun

end Sys2Proof.Machine

/-! The register-change family (spec/10_state.md section 1, spec/42_read_mem.md R86, R87): which instructions can change
a register, and which one they change. -/

namespace Sys2Proof.Machine

/-! ### What a changed register tells -/

/-- A write changes no register but its own. -/
theorem State.eq_of_readReg_writeReg_ne {s : State} {i r : RegIndex} {v : Word}
    (hchg : (s.writeReg i v).readReg r ≠ s.readReg r) : i = r := by
  by_contra hir
  exact hchg (s.readReg_writeReg_ne v (Ne.symm hir))

/-- An execute phase that changes a register is `load_const` of it, or `read_mem` into it with its address in range
(42_read_mem.md R87; 92_eei_decisions.md D10, log 10). -/
theorem exec_readReg_ne {i : Instr} {s t : State} {r : RegIndex} (h : exec i s = .next t)
    (hchg : t.readReg r ≠ s.readReg r) :
    (∃ c, i = .loadConst r c) ∨ (∃ b, i = .readMem b r ∧ (s.readReg b).toNat ≤ 8191) := by
  obtain ⟨t', ht, heffect⟩ := exec_cases i s
  cases h.symm.trans ht
  rcases heffect with ⟨d, c, rfl, rfl⟩ | ⟨b, d, rfl, hle, rfl⟩ | ⟨b, d, rfl, hgt, rfl⟩ | ⟨b, c, rfl, rfl⟩ |
    ⟨b, c, rfl, rfl⟩
  · cases State.eq_of_readReg_writeReg_ne hchg
    exact .inl ⟨c, rfl⟩
  · cases State.eq_of_readReg_writeReg_ne hchg
    exact .inr ⟨b, rfl, hle⟩
  · exact absurd (s.report_readReg _ r) hchg
  · exact absurd (s.memWrite_readReg c _ r) hchg
  · exact absurd (s.memWrite_readReg c _ r) hchg

/-- A step that changes a register executed an instruction, and the change is the execute phase's: neither a halt nor
the pc's advance touches a register (40_fetch_decode_execute.md R71). -/
theorem step_readReg_ne {s u : State} {r : RegIndex} (h : step s = .next u) (hchg : u.readReg r ≠ s.readReg r) :
    ∃ i t, decodeInstr s.fetchBytes = .ok i ∧ exec i s = .next t ∧ t.readReg r ≠ s.readReg r := by
  obtain ⟨-, ⟨-, rfl⟩ | ⟨-, -, rfl⟩ | ⟨-, a, -, rfl⟩ | ⟨-, i, t, hdec, hexec, rfl⟩⟩ := step_cases h
  · exact absurd (s.halt_readReg _ r) hchg
  · exact absurd (s.raise_readReg _ r) hchg
  · exact absurd (s.raise_readReg _ r) hchg
  · exact ⟨i, t, hdec, hexec, t.advance_readReg r ▸ hchg⟩

/-- Settles O35: the change is the execute phase's, and there only `load_const` and an in-range `read_mem` make one. -/
theorem onlyLoadConstAndReadMemChangeARegister : Obligations.OnlyLoadConstAndReadMemChangeARegister := by
  intro s t r hstep hchg
  obtain ⟨i, u, hdec, hexec, hchgExec⟩ := step_readReg_ne hstep hchg
  rcases exec_readReg_ne hexec hchgExec with ⟨c, rfl⟩ | ⟨b, rfl, hle⟩
  · exact .inl ⟨c, hdec⟩
  · exact .inr ⟨b, hdec, hle⟩

end Sys2Proof.Machine

/-! The write_mem family: the word of `write_mem B, C` read back by the Decoder (spec/30_encoding.md R46, R56), and the
step on it (spec/43_write_mem.md R88). -/

namespace Sys2Proof

/-! ### The word of F13 -/

theorem formatF13_toNat (hi : BitVec 14) (c : BitVec 13) (b : BitVec 7) (a : BitVec 6) :
    (formatF13 hi c b a).toNat = 2 ^ 26 * hi.toNat + 2 ^ 13 * c.toNat + 2 ^ 6 * b.toNat + a.toNat := by
  simp only [formatF13, append_toNat]
  omega

/-- The three fields of an F13 word, each read from its own bits (30_encoding.md R46). -/
theorem fieldNat_formatF13 (hi : BitVec 14) (c : BitVec 13) (b : BitVec 7) (a : BitVec 6) :
    fieldNat (formatF13 hi c b a) 0 6 = a.toNat ∧ fieldNat (formatF13 hi c b a) 6 7 = b.toNat ∧
      fieldNat (formatF13 hi c b a) 13 13 = c.toNat := by
  simp only [fieldNat_eq_div_mod, formatF13_toNat]
  omega

theorem decodeInstr_formatF13_writeMem (hi : BitVec 14) (c : BitVec 13) (b : BitVec 7) :
    decodeInstr (bytes40 (formatF13 hi c b 54)) = .ok (.writeMem b c) := by
  obtain ⟨hA, hB, hC⟩ := fieldNat_formatF13 hi c b 54
  exact decodeInstr_of_fields hA hB hC

end Sys2Proof

namespace Sys2Proof.Machine

/-! ### The word a write reaches, and the others -/

/-- The written word reads back: field C is 13 bits wide, so every address it holds is in data memory. -/
theorem State.memRead_memWrite_same (s : State) (a : DataAddr) (v : Word) :
    (s.memWrite a v).memRead a.toNat = some v := by
  rw [State.memRead_memWrite, if_pos rfl]

/-- A write changes no word but its own. -/
theorem State.memRead_memWrite_ne (s : State) {a : DataAddr} {x : Nat} (v : Word) (h : x ≠ a.toNat) :
    (s.memWrite a v).memRead x = s.memRead x := by
  rw [State.memRead_memWrite, if_neg h]

/-- Settles O29: the word decodes to `write_mem B, C`, so the step is the memory write and the advance, and the
rules of those two operations give each clause. -/
theorem stepOnWriteMemWord : Obligations.StepOnWriteMemWord := by
  intro b c s hrun hbytes
  have hdec : decodeInstr s.fetchBytes = .ok (.writeMem b c) := hbytes ▸ decodeInstr_formatF13_writeMem 0 c b
  refine ⟨_, step_of_decodeInstr_ok hrun hdec (exec_writeMem b c s), ?value, ?otherWords, ?regs, ?pc, ?reports,
    ?stream, ?running⟩
  case value => rw [State.advance_memRead, State.memRead_memWrite_same]
  case otherWords =>
    intro a ha
    rw [State.advance_memRead, State.memRead_memWrite_ne s _ ha]
  case regs => simp
  case pc => simp
  case reports => simp
  case stream => simp
  case running => exact State.advance_status_of_lt (s := s.memWrite c (s.readReg b)) hrun

end Sys2Proof.Machine

/-! The not family: the word of `not B, C` read back by the Decoder (spec/30_encoding.md R46, R56), and the step on it
(spec/44_not.md R89, R90). -/

namespace Sys2Proof

theorem decodeInstr_formatF13_not (hi : BitVec 14) (c : BitVec 13) (b : BitVec 7) :
    decodeInstr (bytes40 (formatF13 hi c b 59)) = .ok (.not b c) := by
  obtain ⟨hA, hB, hC⟩ := fieldNat_formatF13 hi c b 59
  exact decodeInstr_of_fields hA hB hC

end Sys2Proof

namespace Sys2Proof.Machine

/-- The complement as a number: the distance to the largest word. -/
theorem complement32_toNat (v : Word) : (complement32 v).toNat = 2 ^ 32 - 1 - v.toNat := by
  rw [complement32_eq_not, BitVec.toNat_not]

/-- A step whose execute phase is one memory write: the written word, the pc and the end of the stream are all that
change (40_fetch_decode_execute.md R71, lines 4 to 6). -/
theorem step_of_exec_memWrite {s : State} {i : Instr} {c : DataAddr} {v : Word} (hrun : s.status = .running)
    (hdec : decodeInstr s.fetchBytes = .ok i) (hexec : exec i s = .next (s.memWrite c v)) :
    ∃ t : State, step s = .next t ∧
      t.memRead c.toNat = some v ∧
      (∀ a : Nat, a ≠ c.toNat → t.memRead a = s.memRead a) ∧
      (∀ r : RegIndex, t.readReg r = s.readReg r) ∧
      t.pc = s.pc + 5 ∧ t.reports = s.reports ∧ t.stream = s.stream ∧
      (s.pc + 5 < s.stream.length → t.status = .running) := by
  refine ⟨_, step_of_decodeInstr_ok hrun hdec hexec, ?value, ?otherWords, ?regs, ?pc, ?reports, ?stream, ?running⟩
  case value => rw [State.advance_memRead, State.memRead_memWrite_same]
  case otherWords =>
    intro a ha
    rw [State.advance_memRead, State.memRead_memWrite_ne s _ ha]
  case regs => simp
  case pc => simp
  case reports => simp
  case stream => simp
  case running => exact State.advance_status_of_lt (s := s.memWrite c v) hrun

/-- Settles O30: the word decodes to `not B, C`, whose execute phase is one memory write, of the complement. -/
theorem stepOnNotWord : Obligations.StepOnNotWord := by
  intro b c s hrun hbytes
  have hdec : decodeInstr s.fetchBytes = .ok (.not b c) := hbytes ▸ decodeInstr_formatF13_not 0 c b
  obtain ⟨t, hstep, hvalue, hframe⟩ := step_of_exec_memWrite hrun hdec (exec_not b c s)
  exact ⟨t, _, hstep, hvalue, complement32_toNat (s.readReg b), hframe⟩

end Sys2Proof.Machine

/-! The reset family (spec/70_reset_and_hazards.md R120): what each piece of state reads as when a run begins. -/

namespace Sys2Proof.Machine

/-- The reset state is the loaded state of the empty stream, so the rules of `load` give its values too. -/
theorem State.reset_eq_load_nil : State.reset = State.load [] := rfl

/-- Every word of a loaded state is at its reset value. -/
theorem State.load_memRead (bs : List Byte) {a : Nat} (ha : a ≤ 8191) : (State.load bs).memRead a = some 0 :=
  calc (State.load bs).memRead a
      = some (Memory.lookup (State.load bs).mem a) := State.memRead_of_le _ ha
    _ = some (Memory.lookup [] a) := by rw [State.load_mem]
    _ = some 0 := rfl

/-- Settles O1: the reset state is a loaded state, and the rules of `load` give each value. -/
theorem resetStateHoldsTheSpecValues : Obligations.ResetStateHoldsTheSpecValues := by
  intro s hs
  obtain ⟨stream, rfl⟩ : ∃ stream : List Byte, s = State.load stream := by
    rcases hs with hreset | hload
    · exact ⟨[], hreset.trans State.reset_eq_load_nil⟩
    · exact hload
  exact ⟨State.load_readReg stream, fun _ ha => State.load_memRead stream ha, State.load_pc stream,
    State.load_status stream, State.load_haltCause stream, State.load_reports stream⟩

end Sys2Proof.Machine

/-! The invariant family (spec/10_state.md R12 to R16): the invariant holds of every loaded state, every step keeps it,
and so it holds in every state of every run. -/

namespace Sys2Proof.Machine

/-! ### What the execute phase does to data memory and to the report log -/

/-- The execute phase keeps the canonical form of data memory. -/
theorem exec_mem_wf {i : Instr} {s t : State} (h : exec i s = .next t) (hwf : Memory.wf s.mem = true) :
    Memory.wf t.mem = true := by
  obtain ⟨t', ht, heffect⟩ := exec_cases i s
  cases h.symm.trans ht
  rcases heffect with ⟨b, c, -, rfl⟩ | ⟨b, d, -, -, rfl⟩ | ⟨b, d, -, -, rfl⟩ | ⟨b, c, -, rfl⟩ | ⟨b, c, -, rfl⟩
  · exact hwf
  · exact hwf
  · exact hwf
  · exact s.memWrite_wf c _ hwf
  · exact s.memWrite_wf c _ hwf

/-- The execute phase reports nothing but the out-of-range address of a `read_mem` (42_read_mem.md R87). -/
theorem exec_reports {i : Instr} {s t : State} (h : exec i s = .next t) :
    t.reports = s.reports ∨
    ∃ b d, i = .readMem b d ∧ 8191 < (s.readReg b).toNat ∧
      t.reports = s.reports ++ [.boundsError s.pc (s.readReg b)] := by
  obtain ⟨t', ht, heffect⟩ := exec_cases i s
  cases h.symm.trans ht
  rcases heffect with ⟨b, c, -, rfl⟩ | ⟨b, d, -, -, rfl⟩ | ⟨b, d, rfl, hgt, rfl⟩ | ⟨b, c, -, rfl⟩ | ⟨b, c, -, rfl⟩
  · exact .inl rfl
  · exact .inl rfl
  · exact .inr ⟨b, d, rfl, hgt, rfl⟩
  · exact .inl rfl
  · exact .inl rfl

/-! ### The report log -/

theorem Report.isPastBounds_iff (limit : Nat) (r : Report) :
    r.isPastBounds limit = true ↔ ∃ p a, r = .boundsError p a ∧ p % 5 = 0 ∧ p < limit ∧ 8191 < a.toNat := by
  cases r <;> simp [Report.isPastBounds, Config.addrMax, and_assoc]

/-- A report of an instruction already passed stays one as the pc moves on. -/
theorem all_isPastBounds_mono {log : List Report} {p q : Nat} (hpq : p ≤ q)
    (h : log.all (Report.isPastBounds p) = true) : log.all (Report.isPastBounds q) = true := by
  rw [List.all_eq_true] at h ⊢
  intro r hr
  obtain ⟨p', a, rfl, hal, hlt, hgt⟩ := (Report.isPastBounds_iff p r).mp (h r hr)
  exact (Report.isPastBounds_iff q _).mpr ⟨p', a, rfl, hal, Nat.lt_of_lt_of_le hlt hpq, hgt⟩

/-- A report at the pc follows, in program order, the reports of the instructions already passed. -/
theorem pairwise_append_report {log : List Report} {r : Report} {pc : Nat} (hpc : r.pc = pc)
    (hpast : log.all (Report.isPastBounds pc) = true) (hrising : (log.map Report.pc).Pairwise (· < ·)) :
    ((log ++ [r]).map Report.pc).Pairwise (· < ·) := by
  rw [List.map_append, List.pairwise_append]
  refine ⟨hrising, List.pairwise_singleton .., fun p hp q hq => ?_⟩
  obtain ⟨r', hr', rfl⟩ := List.mem_map.mp hp
  obtain ⟨p', a, rfl, -, hlt, -⟩ := (Report.isPastBounds_iff pc r').mp (List.all_eq_true.mp hpast r' hr')
  rw [List.map_singleton, List.mem_singleton, hpc] at hq
  exact hq ▸ hlt

/-! ### The invariant of a running state -/

/-- The invariant of a running Executor, its clauses read at the halt cause `none`. -/
theorem State.Inv.of_running {s : State} (hinv : s.Inv) (hrun : s.status = .running) :
    s.haltCause = .none ∧ s.reports.all (Report.isPastBounds s.pc) = true ∧
      (s.pc < s.stream.length ∨ s.pc = 0 ∧ s.stream.length = 0) := by
  have hcause := hinv.cause_iff.mpr hrun
  have hreports := hinv.reports_shape
  have hplace := hinv.pc_place
  simp only [State.reportsShape, hcause] at hreports
  simp only [State.pcPlace, hcause, Bool.or_eq_true, Bool.and_eq_true, decide_eq_true_eq] at hplace
  exact ⟨hcause, hreports, hplace⟩

/-- Settles O2: a loaded state has the empty memory and no reports, and stands at offset 0. -/
theorem resetMeetsTheInvariant : Obligations.ResetMeetsTheInvariant := by
  intro stream
  refine ⟨Memory.wf_reset, rfl, Nat.zero_le _, by simp, ?place, rfl, List.Pairwise.nil⟩
  case place =>
    cases stream with
    | nil => rfl
    | cons b bs => simp [State.pcPlace]

/-! ### The three kinds of step -/

/-- The normal halt before a fetch: only the empty stream meets it (40_fetch_decode_execute.md R72). -/
theorem State.Inv.halt_endOfStream {s : State} (hinv : s.Inv) (hrun : s.status = .running)
    (hend : s.stream.length ≤ s.pc) : (s.halt .endOfStream).Inv := by
  obtain ⟨-, hreports, -⟩ := hinv.of_running hrun
  exact ⟨hinv.mem_wf, hinv.pc_aligned, hinv.pc_le, by simp, decide_eq_true hend, hreports, hinv.reports_rising⟩

/-- A fatal error keeps the invariant where the pc stands at its place and the report is the one of its cause. -/
theorem State.Inv.raise {s : State} (hinv : s.Inv) (hrun : s.status = .running) (e : FatalError)
    (hplace : (s.raise e).pcPlace = true) (hshape : s.reports.all (Report.isPastBounds s.pc) = true →
      (s.raise e).reportsShape = true) : (s.raise e).Inv := by
  obtain ⟨-, hreports, -⟩ := hinv.of_running hrun
  have hcause : e.cause ≠ .none := by cases e <;> simp [FatalError.cause]
  have hpc : (e.toReport s.pc).pc = s.pc := by cases e <;> rfl
  exact ⟨hinv.mem_wf, hinv.pc_aligned, hinv.pc_le, by simp [hcause], hplace, hshape hreports,
    pairwise_append_report hpc hreports hinv.reports_rising⟩

/-- The partial fetch (40_fetch_decode_execute.md R73; 92_eei_decisions.md D5, D6, D8). -/
theorem State.Inv.raise_structural {s : State} (hinv : s.Inv) (hrun : s.status = .running)
    (hlt : s.pc < s.stream.length) (hpart : s.stream.length < s.pc + 5) :
    (s.raise (.structural (s.stream.length - s.pc))).Inv := by
  refine hinv.raise hrun _ ?_ fun hreports => ?_
  · simp [State.pcPlace, FatalError.cause, hlt, hpart]
  · simp [State.reportsShape, FatalError.cause, FatalError.toReport, Report.isPartialAt, hreports]

/-- The unknown opcode (40_fetch_decode_execute.md R74; 92_eei_decisions.md D6, D8). -/
theorem State.Inv.raise_unknownOpcode {s : State} (hinv : s.Inv) (hrun : s.status = .running)
    (hle : s.pc + 5 ≤ s.stream.length) {a : OpcodeCode} (ha : Opcode.ofCode a = none) :
    (s.raise (.unknownOpcode a)).Inv := by
  refine hinv.raise hrun _ ?_ fun hreports => ?_
  · simp [State.pcPlace, FatalError.cause, hle]
  · simp [State.reportsShape, FatalError.cause, FatalError.toReport, Report.isUnknownAt, hreports, ha]

/-- The Decoder names only codes outside the table (30_encoding.md R57). -/
theorem ofCode_eq_none_of_decodeInstr {bs : List Byte} {a : OpcodeCode}
    (h : decodeInstr bs = .error (.unknownOpcode a)) : Opcode.ofCode a = none := by
  obtain ⟨w, -, -, hunknown⟩ := (decode_unknownOpcode_iff bs a).mp ((decodeInstr_error_iff _ _).mp h)
  exact (Opcode.ofCode_eq_none_iff a).mpr hunknown

/-- After an execute phase every report is of an instruction before the next offset, in program order. -/
theorem State.Inv.reports_of_exec {s t : State} {i : Instr} (hinv : s.Inv) (hrun : s.status = .running)
    (hexec : exec i s = .next t) :
    t.reports.all (Report.isPastBounds (s.pc + 5)) = true ∧ (t.reports.map Report.pc).Pairwise (· < ·) := by
  obtain ⟨-, hreports, -⟩ := hinv.of_running hrun
  have hlater := all_isPastBounds_mono (Nat.le_add_right s.pc 5) hreports
  rcases exec_reports hexec with hsame | ⟨b, d, -, hgt, happ⟩
  · rw [hsame]
    exact ⟨hlater, hinv.reports_rising⟩
  · rw [happ]
    refine ⟨?_, pairwise_append_report rfl hreports hinv.reports_rising⟩
    have hnew := (Report.isPastBounds_iff (s.pc + 5) (.boundsError s.pc (s.readReg b))).mpr
      ⟨s.pc, s.readReg b, rfl, hinv.pc_aligned, by omega, hgt⟩
    simp [hlater, hnew]

/-- An executed instruction and the advance, with its test for the end of the stream (40_fetch_decode_execute.md R71;
92_eei_decisions.md D4). -/
theorem State.Inv.exec_advance {s t : State} {i : Instr} (hinv : s.Inv) (hrun : s.status = .running)
    (hle : s.pc + 5 ≤ s.stream.length) (hexec : exec i s = .next t) : t.advance.Inv := by
  obtain ⟨hcause, -, -⟩ := hinv.of_running hrun
  obtain ⟨fpc, fstatus, fcause, fstream⟩ := exec_frame hexec
  obtain ⟨hpast, hrising⟩ := hinv.reports_of_exec hrun hexec
  have haligned := hinv.pc_aligned
  have hcause' := t.advance_haltCause
  have hstatus' := t.advance_status
  rw [fpc, fstream, fcause, hcause] at hcause'
  rw [fpc, fstream, fstatus, hrun] at hstatus'
  refine ⟨?mem, ?aligned, ?le, ?cause, ?place, ?shape, ?rising⟩
  case mem => rw [State.advance_mem]; exact exec_mem_wf hexec hinv.mem_wf
  case aligned => rw [State.advance_pc, fpc]; omega
  case le => rw [State.advance_pc, State.advance_stream, fpc, fstream]; omega
  case cause => rw [hcause', hstatus']; split <;> simp
  case place =>
    simp only [State.pcPlace, State.advance_pc, State.advance_stream, fpc, fstream, hcause']
    split_ifs with hend
    · exact decide_eq_true hend
    · simp; omega
  case shape =>
    simp only [State.reportsShape, State.advance_reports, State.advance_pc, fpc, hcause']
    split_ifs <;> exact hpast
  case rising => rw [State.advance_reports]; exact hrising

/-- Settles O3: each of the four things a step can do keeps the invariant, by the lemma of its kind. -/
theorem stepKeepsTheInvariant : Obligations.StepKeepsTheInvariant := by
  intro s t hinv hstep
  obtain ⟨hrun, ⟨hend, rfl⟩ | ⟨hlt, hpart, rfl⟩ | ⟨hle, a, hdec, rfl⟩ | ⟨hle, i, u, -, hexec, rfl⟩⟩ := step_cases hstep
  · exact hinv.halt_endOfStream hrun hend
  · exact hinv.raise_structural hrun hlt hpart
  · exact hinv.raise_unknownOpcode hrun hle (ofCode_eq_none_of_decodeInstr hdec)
  · exact hinv.exec_advance hrun hle hexec

/-- No step writes the stream (20_memory.md R32). -/
theorem step_stream {s t : State} (h : step s = .next t) : t.stream = s.stream := by
  obtain ⟨-, ⟨-, rfl⟩ | ⟨-, -, rfl⟩ | ⟨-, a, -, rfl⟩ | ⟨-, i, u, -, hexec, rfl⟩⟩ := step_cases h
  · rfl
  · rfl
  · rfl
  · obtain ⟨-, -, -, hstream⟩ := exec_frame hexec
    rw [State.advance_stream, hstream]

/-- Settles O4, by induction on the run: O2 at its first state, O3 and the unwritten stream at every step. -/
theorem everyReachableStateMeetsTheInvariant : Obligations.EveryReachableStateMeetsTheInvariant := by
  intro stream s hreach
  induction hreach with
  | load => exact ⟨resetMeetsTheInvariant stream, State.load_stream stream⟩
  | step _ hstep ih =>
    obtain ⟨hinv, hstream⟩ := ih
    exact ⟨stepKeepsTheInvariant _ _ hinv hstep, (step_stream hstep).trans hstream⟩

end Sys2Proof.Machine

/-! The record family: the Decoder after `Pack` and after `encode` (spec/30_encoding.md R44, R46, R47, R59). -/

namespace Sys2Proof

/-! ### The fields of a packed word -/

/-- The three fields of a packed word, each read from its own bits: the code and the masked operands. -/
theorem fieldNat_pack (r : Record) :
    fieldNat (pack r) 0 6 = r.opcode.code.toNat ∧ fieldNat (pack r) 6 7 = r.b % 2 ^ 7 ∧
      fieldNat (pack r) 13 r.opcode.cWidth = r.c % 2 ^ r.opcode.cWidth := by
  have hcode := r.opcode.code.isLt
  have hb : r.b % 2 ^ 7 < 2 ^ 7 := Nat.mod_lt _ (by decide)
  have habove : (pack r).toNat / 2 ^ 13 = r.c % 2 ^ r.opcode.cWidth := by
    rw [pack_toNat]
    omega
  refine ⟨?_, ?_, ?_⟩
  · rw [fieldNat_eq_div_mod, pack_toNat]
    omega
  · rw [fieldNat_eq_div_mod, pack_toNat]
    omega
  · rw [fieldNat_eq_div_mod, habove, Nat.mod_mod]

/-- A packed word decodes to its record with the operands masked to their fields. -/
theorem decodeWord_pack (r : Record) :
    decodeWord (pack r) = .ok { opcode := r.opcode, a := r.opcode.code.toNat, b := r.b % 2 ^ 7,
                                c := r.c % 2 ^ r.opcode.cWidth } := by
  obtain ⟨hA, hB, hC⟩ := fieldNat_pack r
  rw [decodeWord_of_fieldA hA, hB, hC]

theorem decodeWord_pack_of_wellFormed {r : Record} (h : r.wellFormed = true) : decodeWord (pack r) = .ok r := by
  obtain ⟨ha, hb, hc⟩ := r.wellFormed_iff.mp h
  rw [decodeWord_pack, ← ha, Nat.mod_eq_of_lt (show r.b < 2 ^ 7 by omega), Nat.mod_eq_of_lt hc]

/-- Settles O10: an instruction's record is well-formed and stands for the instruction. -/
theorem decodeAfterEncodeGivesTheInstructionBack : Obligations.DecodeAfterEncodeGivesTheInstructionBack := by
  intro i hwf
  rw [encode, decodeInstr_ok_iff, decode_bytes40]
  exact ⟨i.toRecord, decodeWord_pack_of_wellFormed hwf, i.toInstr_toRecord⟩

/-! ### What the Decoder answers -/

/-- A word that decodes holds the three fields of its record. -/
theorem fields_of_decodeWord {w : InstrWord} {r : Record} (h : decodeWord w = .ok r) :
    fieldNat w 0 6 = r.opcode.code.toNat ∧ r.a = r.opcode.code.toNat ∧ r.b = fieldNat w 6 7 ∧
      r.c = fieldNat w 13 r.opcode.cWidth := by
  rcases decodeWord_cases w with ⟨-, hw⟩ | ⟨op, hop, hw⟩
  · cases h.symm.trans hw
  · cases h.symm.trans hw
    refine ⟨?_, rfl, rfl, rfl⟩
    rw [Opcode.code_of_ofCode hop, fieldA_toNat, fieldNat_eq_div_mod]
    omega

theorem decodeWord_wellFormed {w : InstrWord} {r : Record} (h : decodeWord w = .ok r) : r.wellFormed = true := by
  obtain ⟨-, ha, hb, hc⟩ := fields_of_decodeWord h
  rw [Record.wellFormed_iff, hb, hc, fieldNat_eq_div_mod, fieldNat_eq_div_mod]
  exact ⟨ha, Nat.le_of_lt_succ (Nat.mod_lt _ (by decide)), Nat.mod_lt _ (Nat.two_pow_pos _)⟩

/-- Only five bytes decode, those of a word that does. -/
theorem decode_ok_iff (bs : List Byte) (r : Record) :
    decode bs = .ok r ↔ ∃ w : InstrWord, bs = bytes40 w ∧ decodeWord w = .ok r := by
  constructor
  · intro h
    have h5 : bs.length = 5 := by
      by_contra hlen
      simp [(decode_structural_iff bs).mpr hlen] at h
    obtain ⟨w, rfl⟩ := (length_eq_five_iff_bytes40 bs).mp h5
    exact ⟨w, rfl, decode_bytes40 w ▸ h⟩
  · rintro ⟨w, rfl, h⟩
    rwa [decode_bytes40]

/-- Settles O13: a decoded record is a word's, whose fields are as wide as the checks ask. -/
theorem decodedRecordsAreWellFormed : Obligations.DecodedRecordsAreWellFormed := by
  intro bs r h
  obtain ⟨w, -, hw⟩ := (decode_ok_iff bs r).mp h
  exact decodeWord_wellFormed hw

/-! ### Records and instructions -/

/-- The instruction of a record: its opcode, and its operands cut to the widths of their fields. -/
theorem Record.fields_toInstr (r : Record) :
    r.toInstr.opcode = r.opcode ∧ r.toInstr.fieldB = r.b % 2 ^ 7 ∧
      r.toInstr.fieldC = r.c % 2 ^ r.opcode.cWidth := by
  obtain ⟨op, a, b, c⟩ := r
  cases op <;> exact ⟨rfl, BitVec.toNat_ofNat .., BitVec.toNat_ofNat ..⟩

/-- A well-formed record is that of the instruction it stands for. -/
theorem Record.toRecord_toInstr {r : Record} (h : r.wellFormed = true) : r.toInstr.toRecord = r := by
  obtain ⟨ha, hb, hc⟩ := r.wellFormed_iff.mp h
  obtain ⟨hop, hfieldB, hfieldC⟩ := r.fields_toInstr
  rw [Instr.toRecord, hop, hfieldB, hfieldC, ← ha, Nat.mod_eq_of_lt (show r.b < 2 ^ 7 by omega), Nat.mod_eq_of_lt hc]

/-! ### Canonical words -/

/-- Words with the same five bytes are the same word. -/
theorem bytes40_inj {v w : InstrWord} : bytes40 v = bytes40 w ↔ v = w := by
  constructor
  · intro h
    obtain ⟨h0, h1, h2, h3, h4, -⟩ := by simpa only [bytes40, List.cons.injEq] using h
    rw [← le40_byteOf v, ← le40_byteOf w, h0, h1, h2, h3, h4]
  · exact congrArg bytes40

/-- Canonical: field A is an opcode's code and the word ends with that opcode's field C (30_encoding.md R44). -/
theorem canonical_iff (w : InstrWord) :
    canonical w = true ↔ ∃ op : Opcode, w.toNat % 64 = op.code.toNat ∧ w.toNat < 2 ^ (13 + op.cWidth) := by
  have hcode (op : Opcode) : w.toNat % 64 = op.code.toNat ↔
      Opcode.ofCode (BitVec.ofNat 6 (fieldNat w 0 6)) = some op := by
    rw [← fieldA_toNat, ← BitVec.toNat_eq]
    exact ⟨fun h => h ▸ Opcode.ofCode_code op, fun h => (Opcode.code_of_ofCode h).symm⟩
  have hhigh (k : Nat) : w.toNat >>> k = 0 ↔ w.toNat < 2 ^ k := by
    rw [Nat.shiftRight_eq_div_pow, Nat.div_eq_zero_iff_lt (Nat.two_pow_pos k)]
  simp only [hcode, ← hhigh]
  unfold canonical
  cases Opcode.ofCode (BitVec.ofNat 6 (fieldNat w 0 6)) <;> simp

/-- A canonical word is known by its field A alone. -/
theorem canonical_iff_of_fieldA {w : InstrWord} {op : Opcode} (hA : w.toNat % 64 = op.code.toNat) :
    canonical w = true ↔ w.toNat < 2 ^ (13 + op.cWidth) := by
  rw [canonical_iff]
  constructor
  · rintro ⟨op', hA', hlt⟩
    have hop : op' = op := by
      have hcode := congrArg Opcode.ofCode (BitVec.eq_of_toNat_eq (hA'.symm.trans hA))
      simpa using hcode
    exact hop ▸ hlt
  · exact fun hlt => ⟨op, hA, hlt⟩

/-- A packed word ends with its field C. -/
theorem pack_toNat_lt (r : Record) : (pack r).toNat < 2 ^ (13 + r.opcode.cWidth) := by
  have hcode := r.opcode.code.isLt
  have hc : r.c % 2 ^ r.opcode.cWidth < 2 ^ r.opcode.cWidth := Nat.mod_lt _ (Nat.two_pow_pos _)
  rw [pack_toNat, Nat.pow_add]
  omega

theorem pack_toNat_mod (r : Record) : (pack r).toNat % 64 = r.opcode.code.toNat := by
  have hcode := r.opcode.code.isLt
  rw [pack_toNat]
  omega

theorem canonical_pack (r : Record) : canonical (pack r) = true :=
  (canonical_iff _).mpr ⟨r.opcode, pack_toNat_mod r, pack_toNat_lt r⟩

/-- Packing the record of a word drops the bits above field C and nothing else, so it gives the word back exactly
where those bits are 0. -/
theorem pack_of_decodeWord_eq_iff {w : InstrWord} {r : Record} (h : decodeWord w = .ok r) :
    pack r = w ↔ canonical w = true := by
  obtain ⟨hA, -, hb, hc⟩ := fields_of_decodeWord h
  have hmod : w.toNat % 64 = r.opcode.code.toNat := by
    rw [← hA, fieldNat_eq_div_mod]
    omega
  rw [canonical_iff_of_fieldA hmod]
  constructor
  · exact fun heq => heq ▸ pack_toNat_lt r
  · intro hlt
    have habove : w.toNat / 2 ^ 13 < 2 ^ r.opcode.cWidth :=
      Nat.div_lt_of_lt_mul (Nat.pow_add .. ▸ hlt)
    apply BitVec.eq_of_toNat_eq
    rw [pack_toNat, ← hmod, hb, hc, fieldNat_eq_div_mod, fieldNat_eq_div_mod, Nat.mod_mod, Nat.mod_mod,
      Nat.mod_eq_of_lt habove]
    omega

/-- Settles O9: the round trip of a well-formed record, and `pack_of_decodeWord_eq_iff` for the converse. -/
theorem decodeAfterPackGivesTheRecordBack : Obligations.DecodeAfterPackGivesTheRecordBack := by
  refine ⟨fun r hwf => ?_, fun w r hdec => ?_⟩
  · rw [decode_bytes40, decodeWord_pack_of_wellFormed hwf]
  · rw [decode_bytes40] at hdec
    rw [bytes40_inj, pack_of_decodeWord_eq_iff hdec]

/-! ### The formats -/

theorem formatF7_toNat (hi : BitVec 20) (c b : BitVec 7) (a : BitVec 6) :
    (formatF7 hi c b a).toNat = 2 ^ 20 * hi.toNat + 2 ^ 13 * c.toNat + 2 ^ 6 * b.toNat + a.toNat := by
  simp only [formatF7, append_toNat]
  omega

/-- The three fields of an F7 word, each read from its own bits (30_encoding.md R46). -/
theorem fieldNat_formatF7 (hi : BitVec 20) (c b : BitVec 7) (a : BitVec 6) :
    fieldNat (formatF7 hi c b a) 0 6 = a.toNat ∧ fieldNat (formatF7 hi c b a) 6 7 = b.toNat ∧
      fieldNat (formatF7 hi c b a) 13 7 = c.toNat := by
  simp only [fieldNat_eq_div_mod, formatF7_toNat]
  omega

theorem decodeInstr_formatF7_readMem (hi : BitVec 20) (c b : BitVec 7) :
    decodeInstr (bytes40 (formatF7 hi c b 62)) = .ok (.readMem b c) := by
  obtain ⟨hA, hB, hC⟩ := fieldNat_formatF7 hi c b 62
  exact decodeInstr_of_fields hA hB hC

/-- Settles O11: one lemma per opcode, each from the fields of its format. -/
theorem everyFieldIsReadFromItsOwnBits : Obligations.EveryFieldIsReadFromItsOwnBits :=
  ⟨decodeInstr_formatF25_loadConst, decodeInstr_formatF7_readMem, decodeInstr_formatF13_writeMem,
    decodeInstr_formatF13_not⟩

/-! ### The ISA Table -/

/-- Settles O6: the rows by evaluation, each lookup by its inverse on the table. -/
theorem isaTableHasExactlyTheFourEntries : Obligations.IsaTableHasExactlyTheFourEntries := by
  refine ⟨by decide, fun op => ?_, fun a op => ?_, fun n op => ?_⟩
  · cases op <;> decide
  · exact ⟨Opcode.code_of_ofCode, fun h => h ▸ Opcode.ofCode_code op⟩
  · exact ⟨Opcode.name_of_ofName, fun h => h ▸ Opcode.ofName_name op⟩

/-- Settles O7: the vectors are the test vectors of the Decoder, and the two with high bits follow from the fields. -/
theorem specVectorsDecode : Obligations.SpecVectorsDecode :=
  ⟨Tests.test_decode_load_const, Tests.test_decode_read_mem, Tests.test_decode_write_mem, Tests.test_decode_not,
    decodeInstr_formatF7_readMem 1 117 111, decodeInstr_formatF13_writeMem 1 298 45⟩

end Sys2Proof

/-! The Encoder family (spec/30_encoding.md R44, R50 to R55, R60): the words it produces, the commands it accepts, the
error of a rejected one, and sequences of commands. -/

namespace Sys2Proof

/-! ### Canonical words by their bits -/

theorem Opcode.exists_iff {P : Opcode → Prop} :
    (∃ op, P op) ↔ P .loadConst ∨ P .readMem ∨ P .writeMem ∨ P .not := by
  constructor
  · rintro ⟨op, h⟩
    cases op <;> simp [h]
  · rintro (h | h | h | h) <;> exact ⟨_, h⟩

/-- The top bits of a word are 0 exactly where its value ends below them. -/
theorem extractLsb'_top_eq_zero_iff (w : InstrWord) {lo len : Nat} (h : lo + len = 40) :
    w.extractLsb' lo len = 0 ↔ w.toNat < 2 ^ lo := by
  have hlt : w.toNat / 2 ^ lo < 2 ^ len := by
    apply Nat.div_lt_of_lt_mul
    rw [← Nat.pow_add, h]
    exact w.isLt
  rw [BitVec.toNat_eq, BitVec.extractLsb'_toNat, Nat.shiftRight_eq_div_pow, Nat.mod_eq_of_lt hlt]
  exact Nat.div_eq_zero_iff_lt (Nat.two_pow_pos lo)

/-- The zero bits of each opcode's format. -/
theorem zeroBits_iff (w : InstrWord) :
    (w.extractLsb' 38 2 = 0 ↔ w.toNat < 2 ^ (13 + Opcode.loadConst.cWidth)) ∧
    (w.extractLsb' 20 20 = 0 ↔ w.toNat < 2 ^ (13 + Opcode.readMem.cWidth)) ∧
    (w.extractLsb' 26 14 = 0 ↔ w.toNat < 2 ^ (13 + Opcode.writeMem.cWidth)) ∧
    (w.extractLsb' 26 14 = 0 ↔ w.toNat < 2 ^ (13 + Opcode.not.cWidth)) :=
  ⟨extractLsb'_top_eq_zero_iff w rfl, extractLsb'_top_eq_zero_iff w rfl, extractLsb'_top_eq_zero_iff w rfl,
    extractLsb'_top_eq_zero_iff w rfl⟩

/-- The bytes of an accepted command are those of the packed word of its opcode and its two operands. -/
theorem encodeCommand_ok_iff_operands (cmd : Command) (bs : List Byte) :
    encodeCommand cmd = .ok bs ↔ ∃ (op : Opcode) (b c : Nat), b ≤ op.operands.1.high ∧ c ≤ op.operands.2.high ∧
      cmd.opcode = some op.row.name ∧ cmd.operand op.operands.1 = some (b : Int) ∧
      cmd.operand op.operands.2 = some (c : Int) ∧
      bs = bytes40 (pack { opcode := op, a := op.code.toNat, b := b, c := c }) := by
  rw [encodeCommand_ok_iff]
  constructor
  · rintro ⟨r, hr, rfl⟩
    obtain ⟨op, b, c, hname, hB, hC, hb, hc, rfl⟩ := (validate_ok_iff cmd r).mp hr
    exact ⟨op, b, c, hb, hc, hname, hB, hC, rfl⟩
  · rintro ⟨op, b, c, hb, hc, hname, hB, hC, rfl⟩
    exact ⟨_, (validate_ok_iff cmd _).mpr ⟨op, b, c, hname, hB, hC, hb, hc, rfl⟩, rfl⟩

/-- Settles O14: both clauses are the bound `2 ^ (13 + cWidth)` of a canonical word, read as the format's zero bits. -/
theorem encodedWordsHaveZeroHighBits : Obligations.EncodedWordsHaveZeroHighBits := by
  refine ⟨fun w => ?_, fun cmd bs henc => ?_⟩
  · obtain ⟨h25, h7, h13w, h13n⟩ := zeroBits_iff w
    rw [canonical_iff, Opcode.exists_iff, ← h25, ← h7, ← h13w, ← h13n, ← or_and_right]
    rfl
  · obtain ⟨op, b, c, -, -, hname, -, -, rfl⟩ := (encodeCommand_ok_iff_operands cmd bs).mp henc
    refine ⟨_, rfl, canonical_pack _, ?_⟩
    have hlt := pack_toNat_lt { opcode := op, a := op.code.toNat, b := b, c := c }
    obtain ⟨h25, h7, h13w, h13n⟩ := zeroBits_iff (pack { opcode := op, a := op.code.toNat, b := b, c := c })
    cases op with
    | loadConst => exact .inl ⟨hname, h25.mpr hlt⟩
    | readMem => exact .inr (.inl ⟨hname, h7.mpr hlt⟩)
    | writeMem => exact .inr (.inr ⟨.inl hname, h13w.mpr hlt⟩)
    | not => exact .inr (.inr ⟨.inr hname, h13n.mpr hlt⟩)

/-! ### The accepted commands -/

/-- The packed word of each opcode is its format's picture with zeros above field C. -/
theorem pack_eq_format :
    (∀ a b c : Nat, pack { opcode := .loadConst, a := a, b := b, c := c } =
      formatF25 0 (BitVec.ofNat 25 c) (BitVec.ofNat 7 b) 56) ∧
    (∀ a b c : Nat, pack { opcode := .readMem, a := a, b := b, c := c } =
      formatF7 0 (BitVec.ofNat 7 c) (BitVec.ofNat 7 b) 62) ∧
    (∀ a b c : Nat, pack { opcode := .writeMem, a := a, b := b, c := c } =
      formatF13 0 (BitVec.ofNat 13 c) (BitVec.ofNat 7 b) 54) ∧
    (∀ a b c : Nat, pack { opcode := .not, a := a, b := b, c := c } =
      formatF13 0 (BitVec.ofNat 13 c) (BitVec.ofNat 7 b) 59) := by
  refine ⟨?_, ?_, ?_, ?_⟩ <;> intro a b c <;> apply BitVec.eq_of_toNat_eq <;>
    simp [pack_toNat, formatF25_toNat, formatF7_toNat, formatF13_toNat, Opcode.code, Opcode.cWidth, Opcode.row] <;>
    omega

/-- Settles O16: the accepted commands by their operands, one opcode at a time, and the packed word as its format. -/
theorem encodeAcceptsExactlyTheValidCommands : Obligations.EncodeAcceptsExactlyTheValidCommands := by
  intro cmd bs
  obtain ⟨hloadConst, hreadMem, hwriteMem, hnot⟩ := pack_eq_format
  rw [encodeCommand_ok_iff_operands, Opcode.exists_iff]
  simp only [hloadConst, hreadMem, hwriteMem, hnot]
  exact Iff.rfl

/-! ### The rejected commands -/

/-- A name outside the table fails the first check (30_encoding.md R51). -/
theorem encodeCommand_of_unknown_name {cmd : Command} (h : ∀ op : Opcode, cmd.opcode ≠ some op.row.name) :
    encodeCommand cmd = .error (.unknownOpcode cmd.opcode) := by
  have hcheck : checkOpcode cmd.opcode = .error (.unknownOpcode cmd.opcode) := by
    cases hn : cmd.opcode with
    | none => rfl
    | some n =>
      cases ho : Opcode.ofName n with
      | none => simp [checkOpcode, ho]
      | some op => exact absurd (hn.trans (congrArg some (Opcode.name_of_ofName ho).symm)) (h op)
  simp [encodeCommand, validate, hcheck]

/-- A required operand that is absent fails the second check (30_encoding.md R52). -/
theorem encodeCommand_of_absent {cmd : Command} {op : Opcode} (hname : cmd.opcode = some op.row.name)
    (h : cmd.operand op.operands.1 = none ∨ cmd.operand op.operands.2 = none) :
    encodeCommand cmd = .error (.missingField op [op.operands.1, op.operands.2]) := by
  have hcheck : checkPresence op cmd = .error (.missingField op [op.operands.1, op.operands.2]) := by
    rcases h with h | h
    · simp [checkPresence, h]
    · cases hB : cmd.operand op.operands.1 <;> simp [checkPresence, h, hB]
  simp [encodeCommand, validate, (checkOpcode_ok_iff _ _).mpr hname, hcheck]

/-- With both operands present the error is that of the range checks (30_encoding.md R53). -/
theorem encodeCommand_of_checkRanges_error {cmd : Command} {op : Opcode} {b c : Int} {e : ValidationError}
    (hname : cmd.opcode = some op.row.name) (hB : cmd.operand op.operands.1 = some b)
    (hC : cmd.operand op.operands.2 = some c) (h : checkRanges op b c = .error e) :
    encodeCommand cmd = .error e := by
  simp [encodeCommand, validate, (checkOpcode_ok_iff _ _).mpr hname, (checkPresence_ok_iff _ _ _ _).mpr ⟨hB, hC⟩, h]

theorem checkRange_of_in {o : OperandName} {v : Int} (hlow : 0 ≤ v) (hhigh : v ≤ o.high) :
    checkRange o v = .ok v.toNat :=
  if_pos ⟨hlow, hhigh⟩

theorem checkRange_of_out {o : OperandName} {v : Int} (h : v < 0 ∨ o.high < v) :
    checkRange o v = .error (.outOfRange o v 0 o.high) :=
  if_neg (by omega)

/-- The operand of field B is checked first (92_eei_decisions.md D11, log 12). -/
theorem checkRanges_of_b_out {op : Opcode} {b : Int} (c : Int) (h : b < 0 ∨ op.operands.1.high < b) :
    checkRanges op b c = .error (.outOfRange op.operands.1 b 0 op.operands.1.high) := by
  simp [checkRanges, checkRange_of_out h]

theorem checkRanges_of_c_out {op : Opcode} {b c : Int} (hlow : 0 ≤ b) (hhigh : b ≤ op.operands.1.high)
    (h : c < 0 ∨ op.operands.2.high < c) :
    checkRanges op b c = .error (.outOfRange op.operands.2 c 0 op.operands.2.high) := by
  simp [checkRanges, checkRange_of_in hlow hhigh, checkRange_of_out h]

/-- Settles O17: one lemma per check, in the order of the checks. -/
theorem encodeReportsTheFirstFailedCheck : Obligations.EncodeReportsTheFirstFailedCheck := by
  refine ⟨⟨rfl, rfl, rfl, rfl⟩, fun cmd => ⟨fun hunknown => ?_, fun op hname => ⟨?_, fun b c hB hC => ⟨?_, ?_⟩⟩⟩⟩
  · refine encodeCommand_of_unknown_name fun op hop => hunknown ?_
    rw [hop]
    cases op <;> simp [Opcode.row]
  · exact encodeCommand_of_absent hname
  · exact fun hout => encodeCommand_of_checkRanges_error hname hB hC (checkRanges_of_b_out c hout)
  · exact fun hlow hhigh hout =>
      encodeCommand_of_checkRanges_error hname hB hC (checkRanges_of_c_out hlow hhigh hout)

/-! ### The maxima -/

/-- The operand of field B is a register, and that of field C fills its field exactly. -/
theorem Opcode.operands_high (op : Opcode) : op.operands.1.high = 127 ∧ op.operands.2.high + 1 = 2 ^ op.cWidth := by
  cases op <;> decide

/-- Operands inside the Encoder's bounds fit their fields. -/
theorem Record.wellFormed_of_in_range {op : Opcode} {b c : Nat} (hb : b ≤ op.operands.1.high)
    (hc : c ≤ op.operands.2.high) :
    Record.wellFormed { opcode := op, a := op.code.toNat, b := b, c := c } = true := by
  obtain ⟨hhighB, hhighC⟩ := op.operands_high
  exact (Record.wellFormed_iff _).mpr ⟨rfl, hhighB ▸ hb, hhighC ▸ Nat.lt_succ_of_le hc⟩

/-- A command with both operands in range is encoded, and its bytes decode to its opcode and operands. -/
theorem encodeCommand_of_in_range {cmd : Command} {op : Opcode} {b c : Nat} (hname : cmd.opcode = some op.row.name)
    (hB : cmd.operand op.operands.1 = some (b : Int)) (hC : cmd.operand op.operands.2 = some (c : Int))
    (hb : b ≤ op.operands.1.high) (hc : c ≤ op.operands.2.high) :
    ∃ bs, encodeCommand cmd = .ok bs ∧
      decode bs = .ok { opcode := op, a := op.code.toNat, b := b, c := c } := by
  refine ⟨_, (encodeCommand_ok_iff_operands cmd _).mpr ⟨op, b, c, hb, hc, hname, hB, hC, rfl⟩, ?_⟩
  rw [decode_bytes40, decodeWord_pack_of_wellFormed (Record.wellFormed_of_in_range hb hc)]

/-- A command with an operand past its maximum is rejected. -/
theorem encodeCommand_of_past_maximum {cmd : Command} {op : Opcode} {b c : Int} (hname : cmd.opcode = some op.row.name)
    (hB : cmd.operand op.operands.1 = some b) (hC : cmd.operand op.operands.2 = some c)
    (h : op.operands.1.high < b ∨ op.operands.2.high < c) : ∃ e, encodeCommand cmd = .error e := by
  by_cases hb : b < 0 ∨ op.operands.1.high < b
  · exact ⟨_, encodeCommand_of_checkRanges_error hname hB hC (checkRanges_of_b_out c hb)⟩
  · exact ⟨_, encodeCommand_of_checkRanges_error hname hB hC
      (checkRanges_of_c_out (by omega) (by omega) (.inr (by omega)))⟩

/-- The listed maximum of each opcode is its field C operand's highest value. -/
theorem eq_high_of_mem_maxima {op : Opcode} {m : Nat}
    (h : (op, m) ∈ [(Opcode.loadConst, 33554431), (.readMem, 127), (.writeMem, 8191), (.not, 8191)]) :
    m = op.operands.2.high := by
  cases op <;> simpa [Opcode.operands, OperandName.high] using h

/-- Settles O18: the maxima are the highest values of the operands, in range, and one past them is out. -/
theorem maximaAreExactAndOnePastIsRejected : Obligations.MaximaAreExactAndOnePastIsRejected := by
  intro op m hm cmd hname
  obtain rfl := eq_high_of_mem_maxima hm
  obtain ⟨hhighB, -⟩ := op.operands_high
  refine ⟨fun c hc hB hC => ?_, fun b hb hB hC => ?_, fun c hB hC => ?_, fun b hB hC => ?_⟩
  · exact encodeCommand_of_in_range hname hB hC hhighB.ge hc
  · exact encodeCommand_of_in_range hname hB hC (hhighB ▸ hb) le_rfl
  · exact encodeCommand_of_past_maximum hname hB hC (.inl (by omega))
  · exact encodeCommand_of_past_maximum hname hB hC (.inr (by omega))

/-! ### Sequences of commands -/

theorem encodeCommand_length {cmd : Command} {bs : List Byte} (h : encodeCommand cmd = .ok bs) : bs.length = 5 := by
  obtain ⟨r, -, rfl⟩ := (encodeCommand_ok_iff cmd bs).mp h
  exact bytes40_length _

theorem encodeFrom_cons_of_ok {cmd : Command} {bs : List Byte} (h : encodeCommand cmd = .ok bs) (i : Nat)
    (rest : List Command) :
    encodeFrom i (cmd :: rest) = (encodeFrom (i + 1) rest).map (bs ++ ·) := by
  rw [encodeFrom, h]
  cases encodeFrom (i + 1) rest <;> rfl

theorem encodeFrom_cons_of_error {cmd : Command} {e : ValidationError} (h : encodeCommand cmd = .error e) (i : Nat)
    (rest : List Command) : encodeFrom i (cmd :: rest) = .error (i, e) := by
  rw [encodeFrom, h]

/-- Commands that all encode give their bytes in order, five for each. -/
theorem encodeFrom_of_all_ok (i : Nat) (cmds : List Command) (bss : List (List Byte))
    (h : cmds.map encodeCommand = bss.map Except.ok) :
    encodeFrom i cmds = .ok bss.flatten ∧ bss.flatten.length = 5 * cmds.length := by
  induction cmds generalizing i bss with
  | nil =>
    obtain rfl : bss = [] := by simpa using h.symm
    exact ⟨rfl, rfl⟩
  | cons cmd rest ih =>
    cases bss with
    | nil => simp at h
    | cons bs more =>
      obtain ⟨hcmd, hrest⟩ := by simpa only [List.map_cons, List.cons.injEq] using h
      obtain ⟨hok, hlen⟩ := ih (i + 1) more hrest
      rw [encodeFrom_cons_of_ok hcmd, hok, List.flatten_cons, List.length_append, hlen, encodeCommand_length hcmd,
        List.length_cons]
      exact ⟨rfl, by omega⟩

/-- The first command that fails gives its index, counted on from the first one's. -/
theorem encodeFrom_of_first_error (i : Nat) (before : List Command) {cmd : Command} (after : List Command)
    {e : ValidationError} (hbefore : ∀ c ∈ before, ∃ bs, encodeCommand c = .ok bs)
    (hcmd : encodeCommand cmd = .error e) :
    encodeFrom i (before ++ cmd :: after) = .error (i + before.length, e) := by
  induction before generalizing i with
  | nil => exact encodeFrom_cons_of_error hcmd i after
  | cons c rest ih =>
    obtain ⟨bs, hc⟩ := hbefore c List.mem_cons_self
    rw [List.cons_append, encodeFrom_cons_of_ok hc, ih (i + 1) fun c' hc' => hbefore c' (List.mem_cons_of_mem c hc'),
      List.length_cons, Nat.add_assoc, Nat.add_comm 1]
    rfl

/-- Settles O19: `encodeAll` counts from 0. -/
theorem encodeAllIsAllOrNothing : Obligations.EncodeAllIsAllOrNothing := by
  refine ⟨encodeFrom_of_all_ok 0, fun before cmd after e hbefore hcmd => ?_⟩
  rw [encodeAll, encodeFrom_of_first_error 0 before after hbefore hcmd, Nat.zero_add]

/-! ### Encoded programs -/

/-- The bytes of an accepted command are the encoding of an instruction. -/
theorem encodeCommand_eq_encode {cmd : Command} {bs : List Byte} (h : encodeCommand cmd = .ok bs) :
    ∃ i : Instr, bs = encode i := by
  obtain ⟨op, b, c, hb, hc, -, -, -, rfl⟩ := (encodeCommand_ok_iff_operands cmd bs).mp h
  exact ⟨_, by rw [encode, Record.toRecord_toInstr (Record.wellFormed_of_in_range hb hc)]⟩

/-- The bytes of accepted commands are an encoded program, an instruction for each. -/
theorem encodeFrom_eq_flatMap_encode {i : Nat} {cmds : List Command} {bs : List Byte} (h : encodeFrom i cmds = .ok bs) :
    ∃ is : List Instr, is.length = cmds.length ∧ bs = is.flatMap encode := by
  induction cmds generalizing i bs with
  | nil => cases h; exact ⟨[], rfl, rfl⟩
  | cons cmd rest ih =>
    cases hcmd : encodeCommand cmd with
    | error e => rw [encodeFrom_cons_of_error hcmd] at h; cases h
    | ok head =>
      rw [encodeFrom_cons_of_ok hcmd] at h
      cases hrest : encodeFrom (i + 1) rest with
      | error e => rw [hrest] at h; cases h
      | ok more =>
        rw [hrest] at h
        cases h
        obtain ⟨j, rfl⟩ := encodeCommand_eq_encode hcmd
        obtain ⟨js, hlen, rfl⟩ := ih hrest
        exact ⟨j :: js, by rw [List.length_cons, List.length_cons, hlen], rfl⟩

end Sys2Proof

/-! The data-memory and execute-phase family: the canonical form is unique (log 2), and the result and the frame of
each instruction (spec/41_load_const.md to spec/44_not.md). -/

namespace Sys2Proof.Machine

/-! ### The canonical form of data memory -/

/-- A canonical memory lists nothing below its lower bound. -/
theorem Memory.lookup_of_lt_wfFrom {m : Memory} {lo a : Nat} (hm : Memory.wfFrom lo m = true) (ha : a < lo) :
    Memory.lookup m a = Memory.unlisted := by
  induction m generalizing lo with
  | nil => rfl
  | cons c m ih =>
    obtain ⟨b, w⟩ := c
    obtain ⟨hlo, -, -, hrest⟩ := (Memory.wfFrom_cons lo b w m).mp hm
    rw [Memory.lookup_cons, if_neg (by omega)]
    exact ih hrest (by omega)

/-- The first address a canonical memory lists is where it first reads as something else than the reset content. -/
theorem Memory.wfFrom_head {lo b : Nat} {w : Word} {m : Memory} (hm : Memory.wfFrom lo ((b, w) :: m) = true) :
    b ≤ 8191 ∧ Memory.lookup ((b, w) :: m) b = w ∧ w ≠ Memory.unlisted ∧
      ∀ a < b, Memory.lookup ((b, w) :: m) a = Memory.unlisted := by
  obtain ⟨-, hb, hw, hrest⟩ := (Memory.wfFrom_cons lo b w m).mp hm
  refine ⟨by omega, by simp [Memory.lookup_cons], hw, fun a ha => ?_⟩
  exact Memory.lookup_of_lt_wfFrom ((Memory.wfFrom_cons b b w m).mpr ⟨le_rfl, hb, hw, hrest⟩) ha

/-- Two canonical memories that read alike have the same head, so, the addresses rising, their tails read alike. -/
theorem Memory.eq_of_lookup_eq {lo : Nat} {m n : Memory} (hm : Memory.wfFrom lo m = true)
    (hn : Memory.wfFrom lo n = true) (h : ∀ a ≤ 8191, Memory.lookup m a = Memory.lookup n a) : m = n := by
  induction m generalizing lo n with
  | nil =>
    cases n with
    | nil => rfl
    | cons c n =>
      obtain ⟨hb, hread, hw, -⟩ := Memory.wfFrom_head hn
      exact absurd (hread.symm.trans (h _ hb).symm) hw
  | cons c m ih =>
    obtain ⟨b, w⟩ := c
    obtain ⟨hb, hread, hw, hbelow⟩ := Memory.wfFrom_head hm
    cases n with
    | nil => exact absurd (hread.symm.trans (h b hb)) hw
    | cons c' n =>
      obtain ⟨b', w'⟩ := c'
      obtain ⟨hb', hread', hw', hbelow'⟩ := Memory.wfFrom_head hn
      obtain rfl : b = b' := by
        rcases Nat.lt_trichotomy b b' with hlt | heq | hgt
        · exact absurd (hread.symm.trans ((h b hb).trans (hbelow' b hlt))) hw
        · exact heq
        · exact absurd (hread'.symm.trans ((h b' hb').symm.trans (hbelow b' hgt))) hw'
      obtain rfl : w = w' := hread.symm.trans ((h b hb).trans hread')
      obtain ⟨-, -, -, htail⟩ := (Memory.wfFrom_cons lo b w m).mp hm
      obtain ⟨-, -, -, htail'⟩ := (Memory.wfFrom_cons lo b w n).mp hn
      refine congrArg _ (ih htail htail' fun a ha => ?_)
      by_cases hab : a = b
      · rw [Memory.lookup_of_lt_wfFrom htail (by omega), Memory.lookup_of_lt_wfFrom htail' (by omega)]
      · simpa only [Memory.lookup_cons, if_neg hab] using h a ha

/-- Settles O5, by the recursion of the canonical form. -/
theorem canonicalMemoriesThatReadAlikeAreEqual : Obligations.CanonicalMemoriesThatReadAlikeAreEqual :=
  fun _ _ hm hn h => Memory.eq_of_lookup_eq hm hn h

/-! ### The execute phase, per instruction -/

/-- Settles O20: the register rule for the result and the other registers, the frame of `writeReg` for the rest. -/
theorem loadConstWritesOnlyItsRegister : Obligations.LoadConstWritesOnlyItsRegister := by
  intro b c s
  refine ⟨_, exec_loadConst b c s, ?value, fun r hr => s.readReg_writeReg_ne _ hr, fun a => s.writeReg_memRead b _ a,
    rfl, rfl, rfl, rfl, rfl⟩
  case value => rw [State.readReg_writeReg_same, immValue_toNat]

/-- Settles O21: the word read is looked up before the destination is written. -/
theorem readMemInRangeWritesOnlyItsRegister : Obligations.ReadMemInRangeWritesOnlyItsRegister := by
  intro b d s hle
  refine ⟨_, exec_readMem_of_le b d s hle, ?value, fun r hr => s.readReg_writeReg_ne _ hr,
    fun a => s.writeReg_memRead d _ a, rfl, rfl, rfl, rfl, rfl⟩
  case value => rw [State.readReg_writeReg_same, s.memRead_of_le hle]

/-- Settles O22: the skipped read is one `report`. -/
theorem readMemOutOfRangeOnlyReports : Obligations.ReadMemOutOfRangeOnlyReports := by
  intro b d s hgt
  exact ⟨_, exec_readMem_of_gt b d s hgt, s.report_reports _, s.report_readReg _, s.report_memRead _, rfl, rfl, rfl,
    rfl⟩

/-- Settles O23: the memory rule for the result and the other words, the frame of `memWrite` for the rest. -/
theorem writeMemWritesOnlyItsWord : Obligations.WriteMemWritesOnlyItsWord := by
  intro b c s
  exact ⟨_, exec_writeMem b c s, s.memRead_memWrite_same c _, fun a ha => s.memRead_memWrite_ne _ ha,
    s.memWrite_readReg c _, rfl, rfl, rfl, rfl, rfl⟩

/-- Settles O24: as for `write_mem`, with the complement as a number and bit by bit. -/
theorem notWritesOnlyTheComplement : Obligations.NotWritesOnlyTheComplement := by
  intro b c s
  refine ⟨_, complement32 (s.readReg b), exec_not b c s, s.memRead_memWrite_same c _, complement32_toNat _, ?bits,
    fun a ha => s.memRead_memWrite_ne _ ha, s.memWrite_readReg c _, rfl, rfl, rfl, rfl, rfl⟩
  case bits =>
    intro k hk
    rw [complement32_eq_not, BitVec.getLsbD_not, decide_eq_true hk, Bool.true_and]

end Sys2Proof.Machine

/-! The step family (spec/40_fetch_decode_execute.md R70 to R77): what the step does with a decoded instruction, what
halts a run, and what a step can change. -/

namespace Sys2Proof.Machine

/-! ### The step on a decoded instruction -/

/-- Settles O25: the step is the execute phase and the advance, which leave the rest of the clauses' fields alone. -/
theorem stepRunsTheDecodedInstruction : Obligations.StepRunsTheDecodedInstruction := by
  intro s i hrun hdec
  obtain ⟨t, hexec, -⟩ := exec_cases i s
  obtain ⟨fpc, fstatus, fcause, fstream⟩ := exec_frame hexec
  refine ⟨i.wellFormed_toRecord, t, t.advance, hexec, step_of_decodeInstr_ok hrun hdec hexec, ?pc, t.advance_regs,
    t.advance_mem, t.advance_reports, t.advance_stream, fun hend => ?ended, fun hmore => ?more⟩
  case pc => rw [State.advance_pc, fpc]
  case ended =>
    rw [State.advance_status, State.advance_haltCause, fpc, fstream]
    exact ⟨if_pos hend, if_pos hend⟩
  case more =>
    rw [State.advance_status, State.advance_haltCause, fpc, fstream, fstatus, hrun, fcause]
    exact ⟨if_neg (Nat.not_le.mpr hmore), if_neg (Nat.not_le.mpr hmore)⟩

/-- Settles O26. -/
theorem haltedExecutorHasNoStep : Obligations.HaltedExecutorHasNoStep :=
  step_halted

/-- The step on a decoded instruction as a reader sees it: the registers, the words and the reports the execute phase
leaves, the pc moved by 5. -/
theorem step_executes {s t : State} {i : Instr} (hrun : s.status = .running) (hdec : decodeInstr s.fetchBytes = .ok i)
    (hexec : exec i s = .next t) :
    ∃ u, step s = .next u ∧ (∀ r : RegIndex, u.readReg r = t.readReg r) ∧ (∀ a : Nat, u.memRead a = t.memRead a) ∧
      u.reports = t.reports ∧ u.pc = s.pc + 5 ∧ u.stream = s.stream ∧
      (s.pc + 5 < s.stream.length → u.status = .running) := by
  obtain ⟨fpc, fstatus, -, fstream⟩ := exec_frame hexec
  exact ⟨t.advance, step_of_decodeInstr_ok hrun hdec hexec, t.advance_readReg, t.advance_memRead, t.advance_reports,
    by rw [State.advance_pc, fpc], by rw [State.advance_stream, fstream],
    fun hmore => t.advance_status_of_lt (fstatus.trans hrun) (by rwa [fpc, fstream])⟩

/-- Settles O28: the word decodes to `read_mem B, C`, and each side of the bound is one effect of the execute phase. -/
theorem stepOnReadMemWord : Obligations.StepOnReadMemWord := by
  intro b d s hrun hbytes
  have hdec : decodeInstr s.fetchBytes = .ok (.readMem b d) := hbytes ▸ decodeInstr_formatF7_readMem 0 d b
  obtain ⟨t, hexec, -⟩ := exec_cases (.readMem b d) s
  obtain ⟨u, hstep, hregs, hmem, hreports, hframe⟩ := step_executes hrun hdec hexec
  refine ⟨u, hstep, ?_⟩
  simp only [hregs, hmem, hreports]
  by_cases hle : (s.readReg b).toNat ≤ 8191
  · cases (exec_readMem_of_le b d s hle).symm.trans hexec
    rw [if_pos hle, State.readReg_writeReg_same]
    exact ⟨⟨s.memRead_of_le hle, rfl⟩, fun r hr => s.readReg_writeReg_ne _ hr, fun _ => rfl, hframe⟩
  · cases (exec_readMem_of_gt b d s (Nat.not_le.mp hle)).symm.trans hexec
    rw [if_neg hle]
    exact ⟨⟨rfl, rfl⟩, fun _ _ => rfl, fun _ => rfl, hframe⟩

/-! ### What halts a run -/

/-- The Decoder on the bytes of a word whose code is not in the table. -/
theorem decodeInstr_unknown {w : InstrWord} (h : w.toNat % 64 ∉ [54, 56, 59, 62]) :
    decodeInstr (bytes40 w) = .error (.unknownOpcode (BitVec.ofNat 6 (w.toNat % 64))) := by
  have hcode : (BitVec.ofNat 6 (w.toNat % 64)).toNat = w.toNat % 64 := by simp
  rw [decodeInstr_error_iff, decode_bytes40, decodeWord_unknownOpcode_iff, hcode]
  exact ⟨rfl, h⟩

/-- A step at bytes with an unknown code is the fatal error. -/
theorem step_of_unknown {s : State} {a : OpcodeCode} (hrun : s.status = .running)
    (hdec : decodeInstr s.fetchBytes = .error (.unknownOpcode a)) : step s = .next (s.raise (.unknownOpcode a)) := by
  have h5 : s.fetchBytes.length = 5 := by
    by_contra hne
    cases hdec.symm.trans ((decodeInstr_structural_iff _).mpr hne)
  rw [s.fetchBytes_length] at h5
  rcases step_running s hrun with ⟨hend, -⟩ | ⟨-, hpart, -⟩ | ⟨-, a', ha', hstep⟩ | ⟨-, i, t, hi, -⟩
  · omega
  · omega
  · cases hdec.symm.trans ha'
    exact hstep
  · cases hdec.symm.trans hi

/-- Settles O31: the word's code is unknown to the Decoder, and the step is `raise`. -/
theorem unknownOpcodeHaltsAndOnlyReports : Obligations.UnknownOpcodeHaltsAndOnlyReports := by
  intro s w hrun hbytes hunknown
  exact step_of_unknown hrun (hbytes ▸ decodeInstr_unknown hunknown)

/-- A step with no bytes left is the normal halt. -/
theorem step_of_end {s : State} (hrun : s.status = .running) (hend : s.stream.length ≤ s.pc) :
    step s = .next (s.halt .endOfStream) := by
  rcases step_running s hrun with ⟨-, hstep⟩ | ⟨hlt, -⟩ | ⟨hle, -⟩ | ⟨hle, -⟩
  · exact hstep
  · omega
  · omega
  · omega

/-- A step with 1 to 4 bytes left is the fatal error. -/
theorem step_of_partial {s : State} (hrun : s.status = .running) (hlt : s.pc < s.stream.length)
    (hpart : s.stream.length < s.pc + 5) : step s = .next (s.raise (.structural (s.stream.length - s.pc))) := by
  rcases step_running s hrun with ⟨hend, -⟩ | ⟨-, -, hstep⟩ | ⟨hle, -⟩ | ⟨hle, -⟩
  · omega
  · exact hstep
  · omega
  · omega

/-- Settles O32: the step is `raise`, and the offset follows from the aligned pc. -/
theorem partialFetchHaltsAndOnlyReports : Obligations.PartialFetchHaltsAndOnlyReports := by
  intro s hrun hlt hpart
  refine ⟨step_of_partial hrun hlt hpart, fun hinv => ?_⟩
  have haligned := hinv.pc_aligned
  omega

/-- A step's next state by the event met, each with its run state, its cause and its pc: the normal halt before a
fetch, the two fatal errors, and an executed instruction. -/
theorem step_events {s t : State} (h : step s = .next t) :
    s.status = .running ∧
    ((s.stream.length ≤ s.pc ∧ t.status = .halted ∧ t.haltCause = .endOfStream ∧ t.pc = s.pc) ∨
     (s.pc < s.stream.length ∧ s.stream.length < s.pc + 5 ∧ t.status = .halted ∧ t.haltCause = .structural ∧
       t.pc = s.pc) ∨
     (s.pc + 5 ≤ s.stream.length ∧ (∃ a, decodeInstr s.fetchBytes = .error (.unknownOpcode a)) ∧
       t.status = .halted ∧ t.haltCause = .unknownOpcode ∧ t.pc = s.pc) ∨
     (s.pc + 5 ≤ s.stream.length ∧ (∃ i, decodeInstr s.fetchBytes = .ok i) ∧
       t.status = (if s.stream.length ≤ s.pc + 5 then .halted else .running) ∧
       t.haltCause = (if s.stream.length ≤ s.pc + 5 then .endOfStream else s.haltCause) ∧ t.pc = s.pc + 5)) := by
  obtain ⟨hrun, ⟨hend, rfl⟩ | ⟨hlt, hpart, rfl⟩ | ⟨hle, a, hdec, rfl⟩ | ⟨hle, i, u, hdec, hexec, rfl⟩⟩ := step_cases h
  · exact ⟨hrun, .inl ⟨hend, rfl, rfl, rfl⟩⟩
  · exact ⟨hrun, .inr (.inl ⟨hlt, hpart, rfl, rfl, rfl⟩)⟩
  · exact ⟨hrun, .inr (.inr (.inl ⟨hle, ⟨a, hdec⟩, rfl, rfl, rfl⟩))⟩
  · obtain ⟨fpc, fstatus, fcause, fstream⟩ := exec_frame hexec
    refine ⟨hrun, .inr (.inr (.inr ⟨hle, ⟨i, hdec⟩, ?_, ?_, ?_⟩))⟩
    · rw [State.advance_status, fpc, fstream, fstatus, hrun]
    · rw [State.advance_haltCause, fpc, fstream, fcause]
    · rw [State.advance_pc, fpc]

/-- The next state is halted exactly where the stream ends at most 5 bytes on or the code is unknown. -/
theorem step_halts_iff {s t : State} (h : step s = .next t) :
    t.status = .halted ↔
      s.stream.length ≤ s.pc + 5 ∨ ∃ a, decodeInstr s.fetchBytes = .error (.unknownOpcode a) := by
  obtain ⟨-, ⟨hend, hst, -⟩ | ⟨-, hpart, hst, -⟩ | ⟨-, hunknown, hst, -⟩ | ⟨-, ⟨i, hdec⟩, hst, -⟩⟩ := step_events h
  · exact iff_of_true hst (.inl (by omega))
  · exact iff_of_true hst (.inl (by omega))
  · exact iff_of_true hst (.inr hunknown)
  · rw [hst, hdec]
    split_ifs with hend <;> simp [hend]

/-- The cause of a halt names the event met. -/
theorem step_haltCause {s t : State} (h : step s = .next t) (hhalt : t.status = .halted) :
    (t.haltCause = .endOfStream ∧ s.stream.length ≤ t.pc) ∨
    (t.haltCause = .structural ∧ t.pc < s.stream.length ∧ s.stream.length < t.pc + 5) ∨
    (t.haltCause = .unknownOpcode ∧ ∃ a, decodeInstr s.fetchBytes = .error (.unknownOpcode a)) := by
  obtain ⟨-, ⟨hend, -, hcause, hpc⟩ | ⟨hlt, hpart, -, hcause, hpc⟩ | ⟨-, hunknown, -, hcause, -⟩ |
    ⟨-, ⟨i, hdec⟩, hst, hcause, hpc⟩⟩ := step_events h
  · exact .inl ⟨hcause, hpc ▸ hend⟩
  · exact .inr (.inl ⟨hcause, hpc ▸ hlt, hpc ▸ hpart⟩)
  · exact .inr (.inr ⟨hcause, hunknown⟩)
  · by_cases hend : s.stream.length ≤ s.pc + 5
    · exact .inl ⟨hcause.trans (if_pos hend), hpc ▸ hend⟩
    · rw [if_neg hend, hhalt] at hst
      cases hst

/-- The pc of a normal halt is the first multiple of 5 that the stream does not reach past. -/
theorem step_endOfStream_pc_le {s t : State} (h : step s = .next t) (hinv : s.Inv)
    (hcause : t.haltCause = .endOfStream) {m : Nat} (hm : m % 5 = 0) (hlen : s.stream.length ≤ m) : t.pc ≤ m := by
  have haligned := hinv.pc_aligned
  obtain ⟨hrun, ⟨hend, -, -, hpc⟩ | ⟨-, -, -, hother, -⟩ | ⟨-, -, -, hother, -⟩ | ⟨hle, -, -, -, hpc⟩⟩ := step_events h
  · obtain ⟨-, -, hplace⟩ := hinv.of_running hrun
    omega
  · cases hcause.symm.trans hother
  · cases hcause.symm.trans hother
  · omega

/-- Settles O33: one lemma for the condition, one for the cause, one for the pc of the normal halt. -/
theorem onlyThreeEventsHaltTheRun : Obligations.OnlyThreeEventsHaltTheRun :=
  fun _ _ h => ⟨step_halts_iff h, step_haltCause h, fun hinv hcause _ hm hlen =>
    step_endOfStream_pc_le h hinv hcause hm hlen⟩

/-- Settles O34: the events without an instruction keep the pc and halt, and no such event's bytes decode. -/
theorem pcMovesByFiveOrTheRunHalts : Obligations.PcMovesByFiveOrTheRunHalts := by
  intro s t h
  have hshort (hlt : s.stream.length < s.pc + 5) (i : Instr) : decodeInstr s.fetchBytes ≠ .ok i := by
    have hstructural : decodeInstr s.fetchBytes = .error .structural := by
      rw [decodeInstr_structural_iff, s.fetchBytes_length]
      omega
    simp [hstructural]
  obtain ⟨-, ⟨hend, hst, -, hpc⟩ | ⟨-, hpart, hst, -, hpc⟩ | ⟨-, ⟨a, hdec⟩, hst, -, hpc⟩ |
    ⟨-, ⟨i, hdec⟩, -, -, hpc⟩⟩ := step_events h
  · exact .inr ⟨hshort (by omega), hpc, hst⟩
  · exact .inr ⟨hshort hpart, hpc, hst⟩
  · exact .inr ⟨by simp [hdec], hpc, hst⟩
  · exact .inl ⟨i, hdec, hpc⟩

/-! ### What a step can change -/

/-- An execute phase that changes a word is a `write_mem` or a `not` to it. -/
theorem exec_memRead_ne {i : Instr} {s t : State} {a : Nat} (h : exec i s = .next t)
    (hchg : t.memRead a ≠ s.memRead a) :
    ∃ (b : RegIndex) (c : DataAddr), c.toNat = a ∧ (i = .writeMem b c ∨ i = .not b c) := by
  have haddr {c : DataAddr} {v : Word} (hw : (s.memWrite c v).memRead a ≠ s.memRead a) : c.toNat = a := by
    by_contra hne
    exact hw (s.memRead_memWrite_ne v (Ne.symm hne))
  obtain ⟨t', ht, heffect⟩ := exec_cases i s
  cases h.symm.trans ht
  rcases heffect with ⟨b, c, -, rfl⟩ | ⟨b, d, -, -, rfl⟩ | ⟨b, d, -, -, rfl⟩ | ⟨b, c, rfl, rfl⟩ | ⟨b, c, rfl, rfl⟩
  · exact absurd (s.writeReg_memRead b _ a) hchg
  · exact absurd (s.writeReg_memRead d _ a) hchg
  · exact absurd (s.report_memRead _ a) hchg
  · exact ⟨b, c, haddr hchg, .inl rfl⟩
  · exact ⟨b, c, haddr hchg, .inr rfl⟩

/-- Settles O36: neither a halt nor the advance touches a word, so the change is the execute phase's. -/
theorem onlyWriteMemAndNotChangeAWord : Obligations.OnlyWriteMemAndNotChangeAWord := by
  intro s t a hstep hchg
  obtain ⟨-, ⟨-, rfl⟩ | ⟨-, -, rfl⟩ | ⟨-, e, -, rfl⟩ | ⟨-, i, u, hdec, hexec, rfl⟩⟩ := step_cases hstep
  · exact absurd (s.halt_memRead _ a) hchg
  · exact absurd (s.raise_memRead _ a) hchg
  · exact absurd (s.raise_memRead _ a) hchg
  · obtain ⟨b, c, hc, rfl | rfl⟩ := exec_memRead_ne hexec (u.advance_memRead a ▸ hchg)
    · exact ⟨b, c, hc, .inl hdec⟩
    · exact ⟨b, c, hc, .inr hdec⟩

/-- Settles O37: a fatal error appends its own report, and the execute phase that of an out-of-range `read_mem`. -/
theorem aStepAppendsAtMostOneReport : Obligations.AStepAppendsAtMostOneReport := by
  intro s t hstep
  obtain ⟨-, ⟨-, rfl⟩ | ⟨hlt, hpart, rfl⟩ | ⟨-, a, hdec, rfl⟩ | ⟨-, i, u, hdec, hexec, rfl⟩⟩ := step_cases hstep
  · exact .inl rfl
  · exact .inr (.inr (.inl ⟨hlt, hpart, rfl⟩))
  · exact .inr (.inr (.inr ⟨a, hdec, rfl⟩))
  · rw [State.advance_reports]
    rcases exec_reports hexec with hsame | ⟨b, d, rfl, hgt, happ⟩
    · exact .inl hsame
    · exact .inr (.inl ⟨b, d, hdec, hgt, happ⟩)

/-! ### Another stream with the same bytes at the pc -/

/-- The execute phase does not read the stream. -/
theorem exec_with_stream {i : Instr} {s t : State} (h : exec i s = .next t) (other : List Byte) :
    exec i { s with stream := other } = .next { t with stream := other } := by
  cases i with
  | loadConst b c => cases h; rfl
  | readMem b d =>
    by_cases hle : (s.readReg b).toNat ≤ 8191
    · cases (exec_readMem_of_le b d s hle).symm.trans h
      exact exec_readMem_of_le b d { s with stream := other } hle
    · cases (exec_readMem_of_gt b d s (Nat.not_le.mp hle)).symm.trans h
      exact exec_readMem_of_gt b d { s with stream := other } (Nat.not_le.mp hle)
  | writeMem b c => cases h; rfl
  | not b c => cases h; rfl

/-- The advance sees the stream's length alone. -/
theorem State.advance_with_stream (s : State) {other : List Byte} (hlen : other.length = s.stream.length) :
    ({ s with stream := other } : State).advance = { s.advance with stream := other } := by
  simp only [State.advance, hlen]
  split <;> rfl

/-- Settles O38: the other stream meets the same guard of the step, and each effect commutes with the change. -/
theorem stepSeesOnlyTheBytesAtThePc : Obligations.StepSeesOnlyTheBytesAtThePc := by
  intro s t other hlen hbytes hstep
  refine ⟨step_stream hstep, ?_⟩
  obtain ⟨hrun, ⟨hend, rfl⟩ | ⟨hlt, hpart, rfl⟩ | ⟨-, a, hdec, rfl⟩ | ⟨-, i, u, hdec, hexec, rfl⟩⟩ := step_cases hstep
  · exact step_of_end (s := { s with stream := other }) hrun (hlen.trans_le hend)
  · rw [← hlen] at hlt hpart ⊢
    exact step_of_partial (s := { s with stream := other }) hrun hlt hpart
  · rw [State.fetchBytes, ← hbytes] at hdec
    exact step_of_unknown (s := { s with stream := other }) hrun hdec
  · obtain ⟨-, -, -, fstream⟩ := exec_frame hexec
    rw [State.fetchBytes, ← hbytes] at hdec
    rw [← u.advance_with_stream (hlen.trans (congrArg List.length fstream.symm))]
    exact step_of_decodeInstr_ok (s := { s with stream := other }) hrun hdec (exec_with_stream hexec other)

end Sys2Proof.Machine

/-! The sequence family (spec/20_memory.md R30, spec/44_not.md R91, spec/70_reset_and_hazards.md R124): what a straight
line of instructions leaves in a word, in a register and in the report log. -/

namespace Sys2Proof.Machine

/-! ### What a straight line leaves alone -/

/-- A straight line one instruction at a time: a property that every execute phase keeps, the pc's move past the
instruction included, holds at its end. -/
theorem execAll_induction {P : State → Prop} {is : List Instr} {s t : State} (h : execAll is s = .next t) (hs : P s)
    (hstep : ∀ i ∈ is, ∀ u v : State, P u → exec i u = .next v → P { v with pc := v.pc + 5 }) : P t := by
  induction is generalizing s with
  | nil => cases h; exact hs
  | cons i rest ih =>
    obtain ⟨u, hu, -⟩ := exec_cases i s
    rw [execAll_cons_of_exec hu] at h
    exact ih h (hstep i List.mem_cons_self s u hs hu) fun j hj => hstep j (List.mem_cons_of_mem i hj)

/-- An instruction that does not write a word leaves it. -/
theorem exec_memRead_of_not_writesMem {i : Instr} {s t : State} {a : Nat} (h : exec i s = .next t)
    (hi : writesMem a i = false) : t.memRead a = s.memRead a := by
  by_contra hchg
  obtain ⟨b, c, rfl, rfl | rfl⟩ := exec_memRead_ne h hchg <;> simp [writesMem] at hi

/-- An instruction that does not write a register leaves it. -/
theorem exec_readReg_of_not_writesReg {i : Instr} {s t : State} {r : RegIndex} (h : exec i s = .next t)
    (hi : writesReg r i = false) : t.readReg r = s.readReg r := by
  by_contra hchg
  rcases exec_readReg_ne h hchg with ⟨c, rfl⟩ | ⟨b, rfl, -⟩ <;> simp [writesReg] at hi

theorem execAll_memRead {rest : List Instr} {a : Nat} (hrest : rest.all (fun i => !writesMem a i) = true) {s t : State}
    (h : execAll rest s = .next t) : t.memRead a = s.memRead a := by
  refine execAll_induction (P := fun u => u.memRead a = s.memRead a) h rfl fun i hi u v hu hv => ?_
  have hnot : writesMem a i = false := by simpa using List.all_eq_true.mp hrest i hi
  exact (exec_memRead_of_not_writesMem hv hnot).trans hu

theorem execAll_readReg {rest : List Instr} {r : RegIndex} (hrest : rest.all (fun i => !writesReg r i) = true)
    {s t : State} (h : execAll rest s = .next t) : t.readReg r = s.readReg r := by
  refine execAll_induction (P := fun u => u.readReg r = s.readReg r) h rfl fun i hi u v hu hv => ?_
  have hnot : writesReg r i = false := by simpa using List.all_eq_true.mp hrest i hi
  exact (exec_readReg_of_not_writesReg hv hnot).trans hu

/-! ### The latest write -/

/-- What one instruction leaves in a word stays there through instructions that do not write it. -/
theorem execAll_cons_memRead {i : Instr} {rest : List Instr} {a : Nat} {s t : State}
    (hrest : rest.all (fun i => !writesMem a i) = true) (hi : exec i s = .next t) :
    ∃ u, execAll (i :: rest) s = .next u ∧ u.memRead a = t.memRead a := by
  obtain ⟨u, hu, -⟩ := execAll_completes rest { t with pc := t.pc + 5 }
  exact ⟨u, (execAll_cons_of_exec hi rest).trans hu, (execAll_memRead hrest hu).trans rfl⟩

/-- What one instruction leaves in a register stays there through instructions that do not write it. -/
theorem execAll_cons_readReg {i : Instr} {rest : List Instr} {r : RegIndex} {s t : State}
    (hrest : rest.all (fun i => !writesReg r i) = true) (hi : exec i s = .next t) :
    ∃ u, execAll (i :: rest) s = .next u ∧ u.readReg r = t.readReg r := by
  obtain ⟨u, hu, -⟩ := execAll_completes rest { t with pc := t.pc + 5 }
  exact ⟨u, (execAll_cons_of_exec hi rest).trans hu, (execAll_readReg hrest hu).trans rfl⟩

/-- Settles O39: the write puts the value there, and the rest leaves it. -/
theorem memoryHoldsTheLatestWrite : Obligations.MemoryHoldsTheLatestWrite := by
  intro rest a hrest s
  refine ⟨?_, fun b => ?_, fun b => ?_⟩
  · obtain ⟨t, ht, -⟩ := execAll_completes rest s
    exact ⟨t, ht, execAll_memRead hrest ht⟩
  · obtain ⟨t, ht, hread⟩ := execAll_cons_memRead hrest (exec_writeMem b a s)
    exact ⟨t, ht, hread.trans (s.memRead_memWrite_same a _)⟩
  · obtain ⟨t, ht, hread⟩ := execAll_cons_memRead hrest (exec_not b a s)
    exact ⟨t, _, ht, hread.trans (s.memRead_memWrite_same a _), complement32_toNat _⟩

/-- Settles O40: the load puts the value there, and the rest leaves it. -/
theorem registerHoldsTheLatestLoad : Obligations.RegisterHoldsTheLatestLoad := by
  intro rest r hrest s
  refine ⟨?_, fun c => ?_, fun b hle => ?_⟩
  · obtain ⟨t, ht, -⟩ := execAll_completes rest s
    exact ⟨t, ht, execAll_readReg hrest ht⟩
  · obtain ⟨t, ht, hread⟩ := execAll_cons_readReg hrest (exec_loadConst r c s)
    exact ⟨t, ht, by rw [hread, State.readReg_writeReg_same, immValue_toNat]⟩
  · obtain ⟨t, ht, hread⟩ := execAll_cons_readReg hrest (exec_readMem_of_le b r s hle)
    exact ⟨t, ht, by rw [hread, State.readReg_writeReg_same, s.memRead_of_le hle]⟩

/-! ### Twice the complement -/

/-- Every data address fits the immediate, so a register can be made to hold it. -/
theorem immValue_setWidth_toNat (a : DataAddr) : (immValue (a.setWidth 25)).toNat = a.toNat := by
  have ha := a.isLt
  rw [immValue_toNat, BitVec.toNat_setWidth]
  omega

theorem complement32_complement32 (v : Word) : complement32 (complement32 v) = v := by
  rw [complement32_eq_not, complement32_eq_not, BitVec.not_not]

/-- A `read_mem` through a register that holds a data address loads the word there, without a report. -/
theorem exec_readMem_of_pointer {p d : RegIndex} {a : DataAddr} {v : Word} {s : State}
    (hp : (s.readReg p).toNat = a.toNat) (hv : s.memRead a.toNat = some v) :
    exec (.readMem p d) s = .next (s.writeReg d v) := by
  have hle : a.toNat ≤ 8191 := Nat.le_of_lt_succ a.isLt
  rw [s.memRead_of_le hle, Option.some.injEq] at hv
  rw [exec_readMem_of_le p d s (hp ▸ hle), hp, hv]

/-- `load_const` of an address and `read_mem` through it load the word there, whatever the two registers are. -/
theorem execAll_load_through_pointer (p d : RegIndex) {a : DataAddr} {v : Word} {s : State}
    (hv : s.memRead a.toNat = some v) (rest : List Instr) :
    ∃ t, execAll (.loadConst p (a.setWidth 25) :: .readMem p d :: rest) s = execAll rest t ∧
      t.readReg d = v ∧ t.reports = s.reports := by
  have hpointer : ((s.writeReg p (immValue (a.setWidth 25))).readReg p).toNat = a.toNat := by
    rw [State.readReg_writeReg_same, immValue_setWidth_toNat]
  have hread := exec_readMem_of_pointer (d := d) (s := { s.writeReg p (immValue (a.setWidth 25)) with pc := s.pc + 5 })
    hpointer hv
  exact ⟨_, (execAll_cons_of_exec (exec_loadConst p _ s) _).trans (execAll_cons_of_exec hread rest),
    State.readReg_writeReg_same _ d v, rfl⟩

/-- Settles O41: the complement is stored, loaded through the pointer and complemented again. -/
theorem notTwiceThroughMemoryRestoresTheValue : Obligations.NotTwiceThroughMemoryRestoresTheValue := by
  intro b p d a q s
  obtain ⟨t, hload, hvalue, hreports⟩ := execAll_load_through_pointer p d
    (s := { s.memWrite a (complement32 (s.readReg b)) with pc := s.pc + 5 }) (s.memRead_memWrite_same a _)
    [.not d q]
  refine ⟨{ t.memWrite q (complement32 (t.readReg d)) with pc := t.pc + 5 }, ?_, ?_, hreports⟩
  · exact (execAll_cons_of_exec (exec_not b a s) _).trans hload
  · rw [hvalue, complement32_complement32]
    exact t.memRead_memWrite_same q _

end Sys2Proof.Machine

/-! The run family (spec/40_fetch_decode_execute.md R71 to R80): every run halts within the bound, and the run of an
encoded program is its straight-line execution. -/

namespace Sys2Proof.Machine

/-! ### Every run halts -/

/-- A running Executor's step halts it, or executes an instruction with more of the stream to come. -/
theorem step_progress {s : State} (hrun : s.status = .running) :
    ∃ t, step s = .next t ∧
      (t.status = .halted ∨ s.pc + 5 < s.stream.length ∧ t.pc = s.pc + 5 ∧ t.stream = s.stream) := by
  obtain ⟨t, hstep⟩ : ∃ t, step s = .next t := by
    rcases step_running s hrun with ⟨-, h⟩ | ⟨-, -, h⟩ | ⟨-, a, -, h⟩ | ⟨-, i, u, -, -, h⟩ <;> exact ⟨_, h⟩
  refine ⟨t, hstep, ?_⟩
  obtain ⟨-, ⟨-, hst, -⟩ | ⟨-, -, hst, -⟩ | ⟨-, -, hst, -⟩ | ⟨-, -, hst, -, hpc⟩⟩ := step_events hstep
  · exact .inl hst
  · exact .inl hst
  · exact .inl hst
  · by_cases hend : s.stream.length ≤ s.pc + 5
    · exact .inl (hst.trans (if_pos hend))
    · exact .inr ⟨Nat.not_le.mp hend, hpc, step_stream hstep⟩

/-- Each step takes five of the bytes left, so fewer than `k` times five bytes left give at most `k` steps. -/
theorem runFor_halts (k : Nat) (s : State) (hk : (s.stream.length - s.pc) / 5 < k) :
    ∃ t : State, t.status = .halted ∧ ∀ n : Nat, k ≤ n → runFor n s = .next t := by
  induction k generalizing s with
  | zero => omega
  | succ k ih =>
    cases hst : s.status with
    | halted => exact ⟨s, hst, fun n _ => runFor_of_halted n s hst⟩
    | running =>
      obtain ⟨u, hstep, hcase⟩ := step_progress hst
      obtain ⟨t, hhalt, hall⟩ : ∃ t : State, t.status = .halted ∧ ∀ n : Nat, k ≤ n → runFor n u = .next t := by
        rcases hcase with hhalt | ⟨hmore, hpc, hstream⟩
        · exact ⟨u, hhalt, fun n _ => runFor_of_halted n u hhalt⟩
        · exact ih u (by rw [hpc, hstream]; omega)
      refine ⟨t, hhalt, fun n hn => ?_⟩
      obtain ⟨n, rfl⟩ := Nat.exists_eq_add_of_le' hn
      rw [← Nat.add_assoc, runFor_succ_of_step hst hstep, hall (n + k) (Nat.le_add_left k n)]

/-- Settles O42: `runFor_halts` at the bound itself. -/
theorem everyRunHaltsWithinTheBound : Obligations.EveryRunHaltsWithinTheBound :=
  fun s => runFor_halts _ s (Nat.lt_succ_self _)

/-! ### Encoded instructions at the pc -/

theorem encode_length (i : Instr) : (encode i).length = 5 := bytes40_length _

theorem decodeInstr_encode (i : Instr) : decodeInstr (encode i) = .ok i :=
  decodeAfterEncodeGivesTheInstructionBack i i.wellFormed_toRecord

theorem flatMap_encode_length (is : List Instr) : (is.flatMap encode).length = 5 * is.length := by
  simp [List.length_flatMap, encode_length, Nat.mul_comm]

/-- The five bytes fetched where an instruction's encoding stands at the pc. -/
theorem State.fetchBytes_of_drop {s : State} {w : InstrWord} {more : List Byte}
    (h : s.stream.drop s.pc = bytes40 w ++ more) : s.fetchBytes = bytes40 w := by
  rw [State.fetchBytes, h]
  rfl

/-- The advance over an instruction that the stream goes on after. -/
theorem State.advance_of_lt {s : State} (h : s.pc + 5 < s.stream.length) : s.advance = { s with pc := s.pc + 5 } :=
  if_neg (Nat.not_le.mpr h)

/-- The advance over the last instruction of the stream. -/
theorem State.advance_of_le {s : State} (h : s.stream.length ≤ s.pc + 5) :
    s.advance = ({ s with pc := s.pc + 5 } : State).halt .endOfStream :=
  if_pos h

/-- What is left after the instruction at the pc. -/
theorem drop_add_five {stream more : List Byte} {pc : Nat} {i : Instr} (h : stream.drop pc = encode i ++ more) :
    stream.drop (pc + 5) = more := by
  rw [← List.drop_drop, h]
  exact List.drop_left' (encode_length i)

/-- An encoded program at the pc that more bytes follow: the run executes it in a straight line and goes on there. -/
theorem runFor_of_encoded (is : List Instr) {tail : List Byte} (htail : tail ≠ []) {s t : State}
    (hrun : s.status = .running) (hdrop : s.stream.drop s.pc = is.flatMap encode ++ tail)
    (ht : execAll is s = .next t) (n : Nat) :
    runFor (is.length + n) s = runFor n t ∧ t.stream.drop t.pc = tail := by
  induction is generalizing s with
  | nil =>
    cases ht
    exact ⟨by rw [List.length_nil, Nat.zero_add], hdrop⟩
  | cons i rest ih =>
    rw [List.flatMap_cons, List.append_assoc] at hdrop
    obtain ⟨u, hexec, -⟩ := exec_cases i s
    obtain ⟨fpc, fstatus, -, fstream⟩ := exec_frame hexec
    have hmore := drop_add_five hdrop
    have hlt : s.pc + 5 < s.stream.length := by
      by_contra hge
      rw [List.drop_of_length_le (Nat.not_lt.mp hge)] at hmore
      exact htail (List.append_eq_nil_iff.mp hmore.symm).2
    have hdec : decodeInstr s.fetchBytes = .ok i := by
      rw [State.fetchBytes_of_drop hdrop]
      exact decodeInstr_encode i
    have hstep := step_of_decodeInstr_ok hrun hdec hexec
    rw [State.advance_of_lt (by rwa [fpc, fstream])] at hstep
    rw [execAll_cons_of_exec hexec] at ht
    rw [List.length_cons, Nat.add_right_comm, runFor_succ_of_step hrun hstep]
    exact ih (s := { u with pc := u.pc + 5 }) (fstatus.trans hrun) (by rw [← hmore, ← fpc, ← fstream]) ht

theorem execAll_append {is js : List Instr} {s t : State} (h : execAll is s = .next t) :
    execAll (is ++ js) s = execAll js t := by
  induction is generalizing s with
  | nil => cases h; rfl
  | cons i rest ih =>
    obtain ⟨u, hu, -⟩ := exec_cases i s
    rw [execAll_cons_of_exec hu] at h
    rw [List.cons_append, execAll_cons_of_exec hu, ih h]

/-- An encoded program of at least one instruction that the stream ends with: the run halts in the step of its last
instruction (92_eei_decisions.md D4, log 5). -/
theorem runFor_of_encoded_to_end {is : List Instr} (his : is ≠ []) {s t : State} (hrun : s.status = .running)
    (hdrop : s.stream.drop s.pc = is.flatMap encode) (ht : execAll is s = .next t) (n : Nat) :
    runFor (is.length + n) s = .next (t.halt .endOfStream) := by
  obtain ⟨init, last, rfl⟩ := (List.eq_nil_or_concat is).resolve_left his
  obtain ⟨u, hu, -, hstatus, -, -⟩ := execAll_completes init s
  have hlast : encode last ≠ [] := List.ne_nil_of_length_pos (by rw [encode_length]; decide)
  rw [List.concat_eq_append, List.flatMap_append, List.flatMap_singleton] at hdrop
  rw [List.concat_eq_append] at ht ⊢
  obtain ⟨hgo, hleft⟩ := runFor_of_encoded init hlast hrun hdrop hu (n + 1)
  obtain ⟨v, hexec, -⟩ := exec_cases last u
  obtain ⟨fpc, -, -, fstream⟩ := exec_frame hexec
  rw [execAll_append hu, execAll_cons_of_exec hexec] at ht
  cases ht
  have hend : u.stream.length ≤ u.pc + 5 := by
    have hlen := congrArg List.length hleft
    rw [List.length_drop, encode_length] at hlen
    omega
  have hfetch : u.fetchBytes = encode last := State.fetchBytes_of_drop (hleft.trans (List.append_nil _).symm)
  have hstep := step_of_decodeInstr_ok (hstatus.trans hrun) (hfetch ▸ decodeInstr_encode last) hexec
  rw [State.advance_of_le (by rwa [fpc, fstream])] at hstep
  rw [List.length_append, List.length_singleton, Nat.add_assoc, Nat.add_comm 1, hgo,
    runFor_succ_of_step (hstatus.trans hrun) hstep, runFor_of_halted _ _ (State.halt_status _ _)]

end Sys2Proof.Machine

/-! The program family (spec/40_fetch_decode_execute.md R71 to R80, spec/30_encoding.md R65): the run of an encoded
program, alone or with other bytes after it, and of the streams `EncodeAll` produces. -/

namespace Sys2Proof.Machine

/-! ### Whole programs -/

/-- A straight line from a loaded state ends past the program, still running. -/
theorem execAll_load (is : List Instr) (stream : List Byte) :
    ∃ t, execAll is (State.load stream) = .next t ∧ t.pc = 5 * is.length ∧ t.status = .running ∧
      t.stream = stream := by
  obtain ⟨t, ht, hpc, hstatus, -, hstream⟩ := execAll_completes is (State.load stream)
  exact ⟨t, ht, by rw [hpc, State.load_pc, Nat.zero_add], hstatus, hstream⟩

/-- A run of an encoded program that more bytes follow reaches the end of the program with the fuel left for them. -/
theorem run_of_encoded {is : List Instr} {tail : List Byte} (htail : tail ≠ []) {t : State}
    (ht : execAll is (State.load (is.flatMap encode ++ tail)) = .next t) :
    run (is.flatMap encode ++ tail) = runFor (tail.length / 5 + 1) t ∧ t.stream.drop t.pc = tail := by
  have hfuel : (is.flatMap encode ++ tail).length / 5 + 1 = is.length + (tail.length / 5 + 1) := by
    rw [List.length_append, flatMap_encode_length]
    omega
  obtain ⟨hgo, hleft⟩ := runFor_of_encoded is htail (State.load_status _) (by simp) ht (tail.length / 5 + 1)
  exact ⟨(congrArg (runFor · _) hfuel).trans hgo, hleft⟩

/-- A run whose next step halts it ends there. -/
theorem runFor_succ_of_halting_step {s t : State} (hrun : s.status = .running) (h : step s = .next t)
    (hhalt : t.status = .halted) (n : Nat) : runFor (n + 1) s = .next t := by
  rw [runFor_succ_of_step hrun h, runFor_of_halted n t hhalt]

/-- Settles O44: the empty program meets the end of the stream in its first step, any other in its last instruction's
step. -/
theorem runOfAProgramIsItsStraightLineExecution : Obligations.RunOfAProgramIsItsStraightLineExecution := by
  intro is
  obtain ⟨t, ht, hpc, hstatus, -⟩ := execAll_load is (is.flatMap encode)
  refine ⟨t, ht, hpc, hstatus, ?_⟩
  by_cases his : is = []
  · subst his
    cases ht
    exact runFor_succ_of_halting_step rfl (step_of_end rfl le_rfl) rfl 0
  · have hfuel : (is.flatMap encode).length / 5 + 1 = is.length + 1 := by
      rw [flatMap_encode_length]
      omega
    exact (congrArg (runFor · _) hfuel).trans
      (runFor_of_encoded_to_end his (State.load_status _) (by simp) ht 1)

/-- Settles O45: after the program the unknown word stands at the pc, and its step is the fatal error. -/
theorem firstUnknownOpcodeEndsTheRun : Obligations.FirstUnknownOpcodeEndsTheRun := by
  intro is w rest hunknown
  rw [List.append_assoc]
  obtain ⟨t, ht, hpc, hstatus, -⟩ := execAll_load is (is.flatMap encode ++ (bytes40 w ++ rest))
  obtain ⟨hgo, hleft⟩ := run_of_encoded (by simp [bytes40]) ht
  have hstep := unknownOpcodeHaltsAndOnlyReports t w hstatus (State.fetchBytes_of_drop hleft) hunknown
  refine ⟨t, ht, hpc, ?_⟩
  rw [hgo, runFor_succ_of_halting_step hstatus hstep rfl, hpc]

/-- Settles O46: after the program the tail stands at the pc, and its step is the fatal error. -/
theorem partialTailEndsTheRunAfterTheWholeInstructions :
    Obligations.PartialTailEndsTheRunAfterTheWholeInstructions := by
  intro is tail hpos hle
  obtain ⟨t, ht, hpc, hstatus, hstream⟩ := execAll_load is (is.flatMap encode ++ tail)
  obtain ⟨hgo, hleft⟩ := run_of_encoded (List.ne_nil_of_length_pos hpos) ht
  have hbytes : t.stream.length - t.pc = tail.length := by rw [← List.length_drop, hleft]
  obtain ⟨hstep, -⟩ := partialFetchHaltsAndOnlyReports t hstatus (by omega) (by omega)
  refine ⟨t, ht, hpc, ?_⟩
  rw [hgo, runFor_succ_of_halting_step hstatus hstep rfl, hbytes, hpc]

/-- Settles O43: the first `k` instructions run with the others still after them, and all of them run to the end. -/
theorem wellFormedStreamTakesOneStepEach : Obligations.WellFormedStreamTakesOneStepEach := by
  intro is
  refine ⟨fun k hk => ?_, fun hpos => ?_⟩
  · have hsplit : is.flatMap encode =
        (is.take k).flatMap encode ++ (encode is[k] ++ (is.drop (k + 1)).flatMap encode) := by
      rw [← List.flatMap_cons, ← List.flatMap_append, ← List.drop_eq_getElem_cons hk, List.take_append_drop]
    have htake : (is.take k).length = k := List.length_take_of_le hk.le
    obtain ⟨t, ht, hpc, hstatus, -⟩ := execAll_load (is.take k) (is.flatMap encode)
    obtain ⟨hgo, hleft⟩ := runFor_of_encoded (is.take k) (by simp [encode, bytes40]) (State.load_status _) hsplit ht 0
    rw [htake] at hgo hpc
    refine ⟨t, hgo, hstatus, hpc, ?_⟩
    rw [List.getElem?_eq_getElem hk, Option.map_some, Option.some.injEq]
    exact State.fetchBytes_of_drop hleft
  · obtain ⟨t, ht, hpc, -⟩ := execAll_load is (is.flatMap encode)
    exact ⟨_, runFor_of_encoded_to_end (List.ne_nil_of_length_pos hpos) (State.load_status _) (by simp) ht 0, rfl, hpc⟩

/-! ### Streams from `EncodeAll` -/

/-- No execute phase reports a fatal error. -/
theorem execAll_reports_not_fatal {is : List Instr} {s t : State} (h : execAll is s = .next t)
    (hs : ∀ r ∈ s.reports, r.isFatal = false) : ∀ r ∈ t.reports, r.isFatal = false := by
  refine execAll_induction (P := fun u => ∀ r ∈ u.reports, r.isFatal = false) h hs fun i _ u v hu hexec r hr => ?_
  rcases exec_reports hexec with hsame | ⟨b, d, -, -, happ⟩
  · exact hu r (hsame ▸ hr)
  · rcases List.mem_append.mp (happ ▸ hr) with hold | hnew
    · exact hu r hold
    · obtain rfl := List.mem_singleton.mp hnew
      rfl

/-- Settles O47: the stream is an encoded program, whose run is its straight-line execution by O44. -/
theorem encodedStreamsNeverFail : Obligations.EncodedStreamsNeverFail := by
  intro cmds bs h
  obtain ⟨is, hlen, rfl⟩ := encodeFrom_eq_flatMap_encode h
  obtain ⟨t, ht, hpc, -, hrun⟩ := runOfAProgramIsItsStraightLineExecution is
  have hreports : ∀ r ∈ t.reports, r.isFatal = false := execAll_reports_not_fatal ht (by simp)
  rw [flatMap_encode_length]
  exact ⟨by rw [hlen], _, hrun, rfl, rfl, rfl, hpc, hreports⟩

end Sys2Proof.Machine

/-! The exporter family (spec/20_memory.md R33, R34): the ranges it answers and the entries of each. -/

namespace Sys2Proof.Machine

/-- The ranges that are answered. -/
theorem State.exportRange_of_valid (s : State) {first last : Int} (h : 0 ≤ first ∧ first ≤ last ∧ last ≤ 8191) :
    s.exportRange first last = .ok
      { first := first.toNat, last := last.toNat
        entries := (List.range' first.toNat (last.toNat + 1 - first.toNat)).map s.exportEntry } :=
  if_pos h

/-- The ranges that are refused. -/
theorem State.exportRange_of_invalid (s : State) {first last : Int} (h : ¬(0 ≤ first ∧ first ≤ last ∧ last ≤ 8191)) :
    s.exportRange first last = .error (.range first last) :=
  if_neg h

/-- Settles O48: the entries are those of the addresses from `first` on. -/
theorem exportListsEveryWordOfTheRange : Obligations.ExportListsEveryWordOfTheRange := by
  intro s first last hle hlast
  refine ⟨_, s.exportRange_of_valid (by omega), Int.toNat_natCast first, Int.toNat_natCast last, ?count,
    fun k hk => ⟨_, s.memRead_of_le (by omega), ?entry⟩⟩
  case count =>
    simp
    omega
  case entry =>
    have hlt : k < last + 1 - first := by omega
    simp [hlt, State.exportEntry]

/-- Settles O49: a range is refused exactly where it is not answered. -/
theorem exportOfABadRangeIsAnError : Obligations.ExportOfABadRangeIsAnError := by
  intro s first last
  by_cases h : 0 ≤ first ∧ first ≤ last ∧ last ≤ 8191
  · rw [s.exportRange_of_valid h]
    simp only [reduceCtorEq, false_iff]
    omega
  · rw [s.exportRange_of_invalid h]
    simp only [true_iff]
    omega

end Sys2Proof.Machine
